-- ==== Sys2Proof/Word.lean ====
section
/-! DEFINITION. The widths of the BN256 engine (spec 00_scope.md R5, R6, R7): every value of the block is an unsigned
number of a fixed width, so every one of them is a bit vector. -/

namespace Sys2Proof

/-- One byte of `BUF` (R30). -/
abbrev Byte := BitVec 8

/-- A limb, `LIMB_BITS` = 64 bits; also the host data bus, `HBUS_DATA` = 64 bits (R5, R7). -/
abbrev Limb := BitVec 64

/-- A FixedWidthInteger, `WIDTH` = 256 bits: the content of a narrow register (R5, R12, R21). -/
abbrev Narrow := BitVec 256

/-- A double-width product, 512 bits: the content of a wide register (R5, R12, R23). -/
abbrev Wide := BitVec 512

/-- A command word, `CW_BITS` = 32 bits (R5, R100). -/
abbrev CmdWord := BitVec 32

/-- A host bus address, `HBUS_ADDR` = 12 bits, a byte address (R5, R60). -/
abbrev BusAddr := BitVec 12

/-- A register field of a command word: three bits (R101, R104). -/
abbrev RegField := BitVec 3

end Sys2Proof
end

