-- ==== Sys2Proof/Syntax.lean ====
section
/-! DEFINITION. The commands, one constructor per row of spec/opcode_table.json (spec 30_encoding.md R103); `MODEXP` has two
rows and so two constructors (assumption log 11). Operands stand in the order of the assembler syntax (R112). -/

namespace Sys2Proof

/-- The command set, BN256 command set version 1 (R1, R103). A register field is three bits wide; one that names a wide
register is legal only for 0..3 (R104, R108), which `Instr.wellFormed` checks. -/
inductive Instr where
  /-- `ADD rd, ra, rb` (format RRR, R144) -/
  | add (rd ra rb : RegField)
  /-- `SUB rd, ra, rb` (format RRR, R146) -/
  | sub (rd ra rb : RegField)
  /-- `LT ra, rb` (format C2, R231) -/
  | lt (ra rb : RegField)
  /-- `MUL wd, ra, rb` (format MW, R162); `wd` is a wide register -/
  | mul (wd ra rb : RegField)
  /-- `MOD rd, ra, rn` (format RN, R172) -/
  | mod (rd ra rn : RegField)
  /-- `MODW rd, wa, rn` (format WN, R173); `wa` is a wide register -/
  | modw (rd wa rn : RegField)
  /-- `MODEXP rd, ra, rb, rn, bbits` for `bbits` 0..255 (format E, R192): the first of the two rows -/
  | modexp (rd ra rb rn : RegField) (bbits : BitVec 8)
  /-- `MODEXP rd, ra, rb, rn, 256` (format E, R192): the second of the two rows -/
  | modexp256 (rd ra rb rn : RegField)
  /-- `FROMBF rd, addr, len` (format BL, R212) -/
  | frombf (rd : RegField) (addr : BitVec 8) (len : BitVec 6)
  /-- `FROMBV rd, addr, len` (format BL, R214) -/
  | frombv (rd : RegField) (addr : BitVec 8) (len : BitVec 6)
  /-- `TOB rs, addr` (format BS, R216); the source register stands in the field `fd` -/
  | tob (rs : RegField) (addr : BitVec 8)
deriving DecidableEq, Repr

end Sys2Proof
end

