-- ==== Sys2Proof/WellFormed.lean ====
section
/-! DEFINITION. Which terms of `Instr` are commands: the two checks on wide register numbers (spec 30_encoding.md R104,
R108). Every value of every other field is legal (R104, R105). -/

namespace Sys2Proof

/-- A three-bit field that names a wide register must be 0..3 (R104). -/
def wideField (k : RegField) : Bool := decide (k.toNat < 4)

/-- The term stands for a legal command word. -/
def Instr.wellFormed : Instr → Bool
  | .add _ _ _ => true
  | .sub _ _ _ => true
  | .lt _ _ => true
  | .mul wd _ _ => wideField wd
  | .mod _ _ _ => true
  | .modw _ wa _ => wideField wa
  | .modexp _ _ _ _ _ => true
  | .modexp256 _ _ _ _ => true
  | .frombf _ _ _ => true
  | .frombv _ _ _ => true
  | .tob _ _ => true

end Sys2Proof
end

