-- ==== Sys2Proof/Decode.lean ====
section
/-! DEFINITION. The total decoder of spec 30_encoding.md R111, the encoder of R114, and the mask and match table of R103. -/

namespace Sys2Proof

/-- Why a word is no command (R106 to R109). Every one of them completes with `ERR_ILLEGAL` (R110); the names only say which
check refused the word (assumption log 12). -/
inductive Illegal where
  /-- an unassigned opcode byte (R107) -/
  | opcode (op : BitVec 8)
  /-- a 1 in a bit the format marks 0 (R106) -/
  | reservedBits
  /-- a wide register number 4..7 (R108) -/
  | wideRegister (k : RegField)
  /-- an exponent bit length 257..511 (R109) -/
  | exponentLength (bbits : BitVec 9)
deriving DecidableEq, Repr

/-- `op = cw[31:24]` (R101). -/
def opField (cw : CmdWord) : BitVec 8 := cw.extractLsb' 24 8
/-- `fd = cw[23:21]` (R101). -/
def fdField (cw : CmdWord) : RegField := cw.extractLsb' 21 3
/-- `fa = cw[20:18]` (R101). -/
def faField (cw : CmdWord) : RegField := cw.extractLsb' 18 3
/-- `fb = cw[17:15]` (R101). -/
def fbField (cw : CmdWord) : RegField := cw.extractLsb' 15 3
/-- `fn = cw[14:12]` (R101). -/
def fnField (cw : CmdWord) : RegField := cw.extractLsb' 12 3
/-- `bbits = cw[8:0]` (R101, R105). -/
def bbitsField (cw : CmdWord) : BitVec 9 := cw.extractLsb' 0 9
/-- `len = cw[13:8]` (R101, R105). -/
def lenField (cw : CmdWord) : BitVec 6 := cw.extractLsb' 8 6
/-- `addr = cw[7:0]` (R101, R105). -/
def addrField (cw : CmdWord) : BitVec 8 := cw.extractLsb' 0 8

/-- The decoder (R111), total on all 2^32 words. -/
def decode (cw : CmdWord) : Except Illegal Instr :=
  let fd := fdField cw
  let fa := faField cw
  let fb := fbField cw
  let fn := fnField cw
  match (opField cw).toNat with
  | 0x01 => if cw.extractLsb' 0 15 = 0 then .ok (.add fd fa fb) else .error .reservedBits
  | 0x02 => if cw.extractLsb' 0 15 = 0 then .ok (.sub fd fa fb) else .error .reservedBits
  | 0x03 => if cw.extractLsb' 0 15 = 0 ∧ fd = 0 then .ok (.lt fa fb) else .error .reservedBits
  | 0x04 =>
    if cw.extractLsb' 0 15 = 0 then
      if wideField fd then .ok (.mul fd fa fb) else .error (.wideRegister fd)
    else .error .reservedBits
  | 0x05 => if cw.extractLsb' 0 12 = 0 ∧ fb = 0 then .ok (.mod fd fa fn) else .error .reservedBits
  | 0x06 =>
    if cw.extractLsb' 0 12 = 0 ∧ fb = 0 then
      if wideField fa then .ok (.modw fd fa fn) else .error (.wideRegister fa)
    else .error .reservedBits
  | 0x07 =>
    if cw.extractLsb' 9 3 = 0 then
      if (bbitsField cw).toNat < 256 then .ok (.modexp fd fa fb fn (addrField cw))
      else if (bbitsField cw).toNat = 256 then .ok (.modexp256 fd fa fb fn)
      else .error (.exponentLength (bbitsField cw))
    else .error .reservedBits
  | 0x08 => if cw.extractLsb' 14 7 = 0 then .ok (.frombf fd (addrField cw) (lenField cw)) else .error .reservedBits
  | 0x09 => if cw.extractLsb' 14 7 = 0 then .ok (.frombv fd (addrField cw) (lenField cw)) else .error .reservedBits
  | 0x0A => if cw.extractLsb' 8 13 = 0 then .ok (.tob fd (addrField cw)) else .error .reservedBits
  | _ => .error (.opcode (opField cw))

/-- The word of formats RRR, C2, MW, RN, WN and E: `op * 2^24 + fd * 2^21 + fa * 2^18 + fb * 2^15 + fn * 2^12 + bbits`
(R114). -/
def registerWord (op : Nat) (fd fa fb fn : RegField) (bbits : Nat) : CmdWord :=
  BitVec.ofNat 32
    (2 ^ 24 * op + 2 ^ 21 * fd.toNat + 2 ^ 18 * fa.toNat + 2 ^ 15 * fb.toNat + 2 ^ 12 * fn.toNat + bbits)

/-- The word of formats BL and BS: `op * 2^24 + fd * 2^21 + len * 2^8 + addr` (R114). -/
def bufferWord (op : Nat) (fd : RegField) (len : BitVec 6) (addr : BitVec 8) : CmdWord :=
  BitVec.ofNat 32 (2 ^ 24 * op + 2 ^ 21 * fd.toNat + 2 ^ 8 * len.toNat + addr.toNat)

/-- The encoder (R102, R114). Of a term that is not well-formed it gives the illegal word with those fields. -/
def encode : Instr → CmdWord
  | .add rd ra rb => registerWord 0x01 rd ra rb 0 0
  | .sub rd ra rb => registerWord 0x02 rd ra rb 0 0
  | .lt ra rb => registerWord 0x03 0 ra rb 0 0
  | .mul wd ra rb => registerWord 0x04 wd ra rb 0 0
  | .mod rd ra rn => registerWord 0x05 rd ra 0 rn 0
  | .modw rd wa rn => registerWord 0x06 rd wa 0 rn 0
  | .modexp rd ra rb rn bbits => registerWord 0x07 rd ra rb rn bbits.toNat
  | .modexp256 rd ra rb rn => registerWord 0x07 rd ra rb rn 256
  | .frombf rd addr len => bufferWord 0x08 rd len addr
  | .frombv rd addr len => bufferWord 0x09 rd len addr
  | .tob rs addr => bufferWord 0x0A rs 0 addr

/-- The number of a command's word by the formula of R114: `op * 2^24 + fd * 2^21 + fa * 2^18 + fb * 2^15 + fn * 2^12 +
bbits` for the register formats, `op * 2^24 + fd * 2^21 + len * 2^8 + addr` for the buffer formats. -/
def wordNumber : Instr → Nat
  | .add rd ra rb => 1 * 2 ^ 24 + 2 ^ 21 * rd.toNat + 2 ^ 18 * ra.toNat + 2 ^ 15 * rb.toNat
  | .sub rd ra rb => 2 * 2 ^ 24 + 2 ^ 21 * rd.toNat + 2 ^ 18 * ra.toNat + 2 ^ 15 * rb.toNat
  | .lt ra rb => 3 * 2 ^ 24 + 2 ^ 18 * ra.toNat + 2 ^ 15 * rb.toNat
  | .mul wd ra rb => 4 * 2 ^ 24 + 2 ^ 21 * wd.toNat + 2 ^ 18 * ra.toNat + 2 ^ 15 * rb.toNat
  | .mod rd ra rn => 5 * 2 ^ 24 + 2 ^ 21 * rd.toNat + 2 ^ 18 * ra.toNat + 2 ^ 12 * rn.toNat
  | .modw rd wa rn => 6 * 2 ^ 24 + 2 ^ 21 * rd.toNat + 2 ^ 18 * wa.toNat + 2 ^ 12 * rn.toNat
  | .modexp rd ra rb rn bbits =>
    7 * 2 ^ 24 + 2 ^ 21 * rd.toNat + 2 ^ 18 * ra.toNat + 2 ^ 15 * rb.toNat + 2 ^ 12 * rn.toNat + bbits.toNat
  | .modexp256 rd ra rb rn =>
    7 * 2 ^ 24 + 2 ^ 21 * rd.toNat + 2 ^ 18 * ra.toNat + 2 ^ 15 * rb.toNat + 2 ^ 12 * rn.toNat + 256
  | .frombf rd addr len => 8 * 2 ^ 24 + 2 ^ 21 * rd.toNat + 2 ^ 8 * len.toNat + addr.toNat
  | .frombv rd addr len => 9 * 2 ^ 24 + 2 ^ 21 * rd.toNat + 2 ^ 8 * len.toNat + addr.toNat
  | .tob rs addr => 10 * 2 ^ 24 + 2 ^ 21 * rs.toNat + addr.toNat

/-- A row of the opcode map: a word `cw` is the row's command exactly when `cw AND mask = value` (R103). -/
structure OpcodeRow where
  mask : CmdWord
  value : CmdWord
deriving DecidableEq, Repr

/-- The word is one of the row's. -/
def OpcodeRow.admits (row : OpcodeRow) (cw : CmdWord) : Bool := cw &&& row.mask == row.value

/-- The row of the opcode map that an instruction's words match (R103). -/
def rowOf : Instr → OpcodeRow
  | .add _ _ _ => ⟨0xFF007FFF, 0x01000000⟩
  | .sub _ _ _ => ⟨0xFF007FFF, 0x02000000⟩
  | .lt _ _ => ⟨0xFFE07FFF, 0x03000000⟩
  | .mul _ _ _ => ⟨0xFF807FFF, 0x04000000⟩
  | .mod _ _ _ => ⟨0xFF038FFF, 0x05000000⟩
  | .modw _ _ _ => ⟨0xFF138FFF, 0x06000000⟩
  | .modexp _ _ _ _ _ => ⟨0xFF000F00, 0x07000000⟩
  | .modexp256 _ _ _ _ => ⟨0xFF000FFF, 0x07000100⟩
  | .frombf _ _ _ => ⟨0xFF1FC000, 0x08000000⟩
  | .frombv _ _ _ => ⟨0xFF1FC000, 0x09000000⟩
  | .tob _ _ => ⟨0xFF1FFF00, 0x0A000000⟩

/-- The eleven rows of the opcode map, in its order (R103). -/
def opcodeRows : List OpcodeRow :=
  [rowOf (.add 0 0 0), rowOf (.sub 0 0 0), rowOf (.lt 0 0), rowOf (.mul 0 0 0), rowOf (.mod 0 0 0), rowOf (.modw 0 0 0),
   rowOf (.modexp 0 0 0 0 0), rowOf (.modexp256 0 0 0 0), rowOf (.frombf 0 0 0), rowOf (.frombv 0 0 0), rowOf (.tob 0 0)]

/-- The command word on host data: bits 31:0 of the 64-bit bus value, bits 63:32 ignored (R29, R100). -/
def wordOfBus (d : Limb) : CmdWord := d.extractLsb' 0 32

/-- The instruction the decoder reads from the `nbits` low bits of `w`, every bit above them 0. A command is one 32-bit
number on the data bus (R73, R100), so its bits are numbered as the opcode table numbers them (assumption log 19). -/
def decodeTableWord (nbits w : Nat) : Option Instr :=
  match decode (BitVec.ofNat 32 (w % 2 ^ nbits)) with
  | .ok i => some i
  | .error _ => none

end Sys2Proof
end

