-- ==== Sys2Proof/Config.lean ====
section
/-! DEFINITION. What the spec leaves to the implementation: the open parameter `LAT` (spec 70_reset_and_hazards.md R279,
decision D32) and the free values that the hidden state holds between commands (spec 10_state.md R32, decision D35). All of
them are opaque: no proof can learn what they are, so a claim holds whatever they are. -/

namespace Sys2Proof.Config

/-- How many clock cycles, after the cycle of acceptance, still read `BUSY = 1` before the completion of the command word
`w` with the 3-bit error code `e`: the open parameter of R279, less one. It is a function of the command word and the
error code and of nothing else, which is the latency law R276. Assumption log 3. -/
opaque busyCycles : BitVec 32 → BitVec 3 → Nat

/-- `LAT` of R279: the cycles from the acceptance to the cycle in which `BUSY` reads 0 again; positive. -/
def lat (w : BitVec 32) (e : BitVec 3) : Nat := busyCycles w e + 1

/-- What the hidden product `P` holds after the `k`-th completion: any value (R32). Assumption log 5. -/
opaque freeP : Nat → BitVec 512
/-- What the hidden `mx_acc` holds after the `k`-th completion: any value (R32). Assumption log 5. -/
opaque freeMxAcc : Nat → BitVec 256
/-- What the hidden `mx_sq` holds after the `k`-th completion: any value (R32). Assumption log 5. -/
opaque freeMxSq : Nat → BitVec 256
/-- What the hidden `mx_t` holds after the `k`-th completion: any value (R32). Assumption log 5. -/
opaque freeMxT : Nat → BitVec 256
/-- What the hidden `mx_i` holds after the `k`-th completion: any value (R32). Assumption log 5. -/
opaque freeMxI : Nat → BitVec 9
/-- What the hidden `rem` holds after the `k`-th completion: any value (R32). Assumption log 5. -/
opaque freeRem : Nat → BitVec 257
/-- What the first operand latch holds after the `k`-th completion: any value (R32). Assumption log 5. -/
opaque freeLatchA : Nat → BitVec 512
/-- What the second operand latch holds after the `k`-th completion: any value (R32). Assumption log 5. -/
opaque freeLatchB : Nat → BitVec 256
/-- What the modulus latch holds after the `k`-th completion: any value (R32). Assumption log 5. -/
opaque freeLatchN : Nat → BitVec 256
/-- What the byte latch holds after the `k`-th completion: any value (R32). Assumption log 5. -/
opaque freeLatchBytes : Nat → BitVec 256

end Sys2Proof.Config
end

