-- ==== Sys2Proof/Machine/State.lean ====
section
/-! DEFINITION. The state of the BN256 engine as plain data: the two register files, the byte buffer, the flags, the error
code, the hidden state (spec 10_state.md R21 to R31), and the model's own fields that carry the host port and time. -/

namespace Sys2Proof.Machine

/-- The narrow register file `r0..r7`, each 256 bits (R21). -/
structure NarrowFile where
  r0 : Narrow
  r1 : Narrow
  r2 : Narrow
  r3 : Narrow
  r4 : Narrow
  r5 : Narrow
  r6 : Narrow
  r7 : Narrow
deriving DecidableEq, Repr

/-- The wide register file `w0..w3`, each 512 bits (R23). -/
structure WideFile where
  w0 : Wide
  w1 : Wide
  w2 : Wide
  w3 : Wide
deriving DecidableEq, Repr

/-- The byte buffer `BUF` (R30) as (address, byte) pairs, addresses strictly rising, no zero byte listed; an unlisted byte
reads 0, its reset value (R41, assumption log 8). -/
abbrev Memory := List Host.Cell

/-- The memory is in its one canonical form and lies inside `BUF[0..255]`. -/
abbrev Memory.wf (m : Memory) : Prop :=
  m.Pairwise (fun x y => x.1 < y.1) ∧ ∀ c ∈ m, c.1 < 256 ∧ c.2 ≠ 0

/-- The six error codes of `STATUS.ERR` (R241); codes 6 and 7 never occur. -/
inductive ErrCode where
  /-- 0, success -/
  | ok
  /-- 1, `ERR_ZERO_MODULUS` (R242) -/
  | zeroModulus
  /-- 2, `ERR_BASE_RANGE` (R243) -/
  | baseRange
  /-- 3, `ERR_LENGTH` (R244) -/
  | length
  /-- 4, `ERR_ILLEGAL` (R246) -/
  | illegal
  /-- 5, `ERR_BUF_RANGE` (R245) -/
  | bufRange
deriving DecidableEq, Repr

/-- Whether a command is running (R31). -/
inductive Phase where
  /-- no command runs; `STATUS.BUSY` = 0 -/
  | idle
  /-- a command has been accepted and not completed; `STATUS.BUSY` = 1 -/
  | exec
deriving DecidableEq, Repr

/-- The hidden state other than `phase` and `cur_cmd` (R31). The spec does not count the operand latches; these four are as
wide as the operands any command reads (assumption log 6). -/
structure Hidden where
  /-- `P`: the product inside `MODEXP` (R195) -/
  p : BitVec 512
  /-- `mx_acc`: the accumulator (R197) -/
  mxAcc : BitVec 256
  /-- `mx_sq`: the squared candidate (R197) -/
  mxSq : BitVec 256
  /-- `mx_t`: the multiplied candidate (R197) -/
  mxT : BitVec 256
  /-- `mx_i`: the exponent-scan index (R197) -/
  mxI : BitVec 9
  /-- `rem`: the running remainder (R174) -/
  rem : BitVec 257
  /-- the latch of the first source operand, wide enough for a wide register (R39) -/
  latchA : BitVec 512
  /-- the latch of the second source operand (R39) -/
  latchB : BitVec 256
  /-- the latch of the modulus (R39) -/
  latchN : BitVec 256
  /-- the latch of up to 32 bytes of `BUF` (R39) -/
  latchBytes : BitVec 256
deriving DecidableEq, Repr

/-- What the environment of the port does next (R20, R61, R270). A presented transaction stays presented until it is
accepted (R61). Assumption log 1. -/
inductive HostEvent where
  /-- `rst` = 1 for one cycle (R270) -/
  | reset
  /-- `h_valid` = 0 for one cycle -/
  | idle
  /-- `h_valid` = 0 while the `busy` pin is 1, and for one cycle more -/
  | await
  /-- a read of the bus address, presented until accepted (R68) -/
  | read (addr : BusAddr)
  /-- a write of the 64-bit data to the bus address, presented until accepted (R69) -/
  | write (addr : BusAddr) (data : Limb)
deriving DecidableEq, Repr

/-- What the port answered to an accepted transaction (R61): `h_rdata` and `h_err` of a read, `h_err` of a write. -/
inductive BusReply where
  | read (rdata : Limb) (err : Bool)
  | write (err : Bool)
deriving DecidableEq, Repr

/-- The machine. -/
structure State where
  /-- `r0..r7` (R21) -/
  narrow : NarrowFile
  /-- `w0..w3` (R23) -/
  wide : WideFile
  /-- `BUF` (R30) -/
  buf : Memory
  /-- `FLAGS.C` (R27) -/
  flagC : Bool
  /-- `FLAGS.LT` (R27) -/
  flagLT : Bool
  /-- `STATUS.ERR` (R28) -/
  err : ErrCode
  /-- `phase` (R31); `STATUS.BUSY` is 1 exactly when it is `exec` -/
  phase : Phase
  /-- `cur_cmd` (R31): the command word accepted, valid while `phase` is `exec` (assumption log 7) -/
  curCmd : CmdWord
  /-- the rest of the hidden state (R31) -/
  hidden : Hidden
  /-- `h_rdata` and `h_err` of the last accepted transaction (R61, assumption log 14) -/
  reply : Option BusReply
  /-- the model's own: what the environment does next, oldest first (assumption log 1) -/
  port : List HostEvent
  /-- the model's own: busy cycles still to pass before the completion (R276, assumption log 3) -/
  left : Nat
  /-- the model's own: clock cycles passed (R276, assumption log 3) -/
  clock : Nat
  /-- the model's own: how many times the hidden state took free values (R32, assumption log 5) -/
  freeCount : Nat
deriving DecidableEq, Repr

/-- Why the machine stops with a fault. The spec has none (R240, R249); this one guards the model's own operations. -/
inductive Fault where
  /-- Raised by `State.memRead` and `State.memWrite` when asked for a run of bytes that does not lie inside `BUF[0..255]`
  (R8 requires `addr + n <= 256`). No command reaches it: each fails with `ERR_BUF_RANGE` first (R219). Safe. Assumption
  log 18. -/
  | bufRun (addr len : Nat)
deriving DecidableEq, Repr

/-- Why the machine gives an instruction no meaning. -/
inductive Refusal where
  /-- Raised by an arm of `exec` whose instruction has no meaning yet; no arm raises it. Safe. -/
  | notModelled (mnemonic : String)
deriving DecidableEq, Repr

/-- The outcome of a step. -/
abbrev Result := Host.Outcome State Fault Refusal

/-- Every narrow register zero (R41). -/
def NarrowFile.zero : NarrowFile := ⟨0, 0, 0, 0, 0, 0, 0, 0⟩

/-- Every wide register zero (R41). -/
def WideFile.zero : WideFile := ⟨0, 0, 0, 0⟩

/-- The hidden state zero (R41). -/
def Hidden.zero : Hidden := ⟨0, 0, 0, 0, 0, 0, 0, 0, 0, 0⟩

/-- The state after reset (R41, R270). The model's own fields are empty or zero (assumption log 1, 3, 5, 14). -/
def State.reset : State where
  narrow := NarrowFile.zero
  wide := WideFile.zero
  buf := []
  flagC := false
  flagLT := false
  err := .ok
  phase := .idle
  curCmd := 0
  hidden := Hidden.zero
  reply := none
  port := []
  left := 0
  clock := 0
  freeCount := 0

end Sys2Proof.Machine
end

