-- ==== Sys2Proof/Machine/Ops.lean ====
section
/-! DEFINITION. The named operations over registers, `BUF` and flags (spec 00_scope.md R7 to R10), the end of a command as a
success or a failure (R34, R240, R248), and the register views of `STATUS` and `FLAGS` (R27, R28). -/

namespace Sys2Proof.Machine

/-! ## Limbs (R7, R8) -/

/-- `limb(v, j) = v[64j+63 : 64j]` (R7). -/
def limb {n : Nat} (v : BitVec n) (j : Nat) : Limb := v.extractLsb' (64 * j) 64

/-- `nat(l0, l1, l2, l3)` as a 256-bit value (R7). -/
def natOfLimbs (l0 l1 l2 l3 : Limb) : Narrow :=
  BitVec.ofNat 256 (l0.toNat + 2 ^ 64 * l1.toNat + 2 ^ 128 * l2.toNat + 2 ^ 192 * l3.toNat)

/-- `v` with limb `j` replaced; the other limbs keep their values (R69). -/
def setLimb {n : Nat} (v : BitVec n) (j : Nat) (d : Limb) : BitVec n :=
  (v &&& ~~~((BitVec.allOnes 64).setWidth n <<< (64 * j))) ||| (d.setWidth n <<< (64 * j))

/-! ## Register files (R21, R23) -/

/-- Narrow register `i`. -/
def NarrowFile.get (f : NarrowFile) (i : RegField) : Narrow :=
  match i.toNat with
  | 0 => f.r0
  | 1 => f.r1
  | 2 => f.r2
  | 3 => f.r3
  | 4 => f.r4
  | 5 => f.r5
  | 6 => f.r6
  | _ => f.r7

/-- The narrow file with register `i` replaced, all four limbs together (R8). -/
def NarrowFile.set (f : NarrowFile) (i : RegField) (v : Narrow) : NarrowFile :=
  match i.toNat with
  | 0 => { f with r0 := v }
  | 1 => { f with r1 := v }
  | 2 => { f with r2 := v }
  | 3 => { f with r3 := v }
  | 4 => { f with r4 := v }
  | 5 => { f with r5 := v }
  | 6 => { f with r6 := v }
  | _ => { f with r7 := v }

/-- Wide register `k`. -/
def WideFile.get (f : WideFile) (k : BitVec 2) : Wide :=
  match k.toNat with
  | 0 => f.w0
  | 1 => f.w1
  | 2 => f.w2
  | _ => f.w3

/-- The wide file with register `k` replaced, all eight limbs together (R8). -/
def WideFile.set (f : WideFile) (k : BitVec 2) (v : Wide) : WideFile :=
  match k.toNat with
  | 0 => { f with w0 := v }
  | 1 => { f with w1 := v }
  | 2 => { f with w2 := v }
  | _ => { f with w3 := v }

/-- `r[i]` (R8). -/
def State.readN (s : State) (i : RegField) : Narrow := s.narrow.get i

/-- `r[i] <- v` (R8). -/
def State.writeN (s : State) (i : RegField) (v : Narrow) : State := { s with narrow := s.narrow.set i v }

/-- `w[k]` (R8). -/
def State.readW (s : State) (k : BitVec 2) : Wide := s.wide.get k

/-- `w[k] <- v` (R8). -/
def State.writeW (s : State) (k : BitVec 2) (v : Wide) : State := { s with wide := s.wide.set k v }

/-- `FLAGS.C <- b` (R8). -/
def State.setC (s : State) (b : Bool) : State := { s with flagC := b }

/-- `FLAGS.LT <- b` (R8). -/
def State.setLT (s : State) (b : Bool) : State := { s with flagLT := b }

/-! ## The byte buffer (R8, R30) -/

/-- `BUF[a]`: the listed byte, and 0 where none is listed (R41). -/
def Memory.byteAt : Memory → Nat → Byte
  | [], _ => 0
  | (a, v) :: rest, k => if a = k then v else Memory.byteAt rest k

/-- A cell put at its place in rising order. -/
def Memory.insertCell (a : Nat) (v : Byte) : Memory → Memory
  | [] => [(a, v)]
  | (b, w) :: rest => if a < b then (a, v) :: (b, w) :: rest else (b, w) :: Memory.insertCell a v rest

/-- `BUF[a] <- v`, keeping the canonical form: a zero byte is not listed. -/
def Memory.put (m : Memory) (a : Nat) (v : Byte) : Memory :=
  let others := m.filter (fun c => c.1 != a)
  if v = 0 then others else Memory.insertCell a v others

/-- The `n` bytes from address `a` on, lowest address first. -/
def Memory.run (m : Memory) (a : Nat) : Nat → List Byte
  | 0 => []
  | n + 1 => m.byteAt a :: Memory.run m (a + 1) n

/-- The bytes stored from address `a` on, lowest address first. -/
def Memory.putRun (m : Memory) (a : Nat) : List Byte → Memory
  | [] => m
  | b :: bs => Memory.putRun (m.put a b) (a + 1) bs

/-- `BUF[a]` of the state (R8). -/
def State.byteAt (s : State) (a : Nat) : Byte := s.buf.byteAt a

/-- `MemRead(addr, n)` (R8): requires `addr + n <= 256`. -/
def State.memRead (s : State) (addr n : Nat) : Except Fault (List Byte) :=
  if addr + n ≤ 256 then .ok (s.buf.run addr n) else .error (.bufRun addr n)

/-- `MemWrite(addr, n, bs)` (R8): requires `addr + n <= 256`. -/
def State.memWrite (s : State) (addr : Nat) (bs : List Byte) : Except Fault State :=
  if addr + bs.length ≤ 256 then .ok { s with buf := s.buf.putRun addr bs } else .error (.bufRun addr bs.length)

/-! ## Byte strings (R10) -/

/-- `be_nat(bs)`: the first byte is the most significant (R10). -/
def beNat : List Byte → Nat
  | [] => 0
  | b :: bs => 256 ^ bs.length * b.toNat + beNat bs

/-- `be_bytes32(v)`: byte `k` is `v[8*(31-k)+7 : 8*(31-k)]` (R10). -/
def beBytes32 (v : Narrow) : List Byte := (List.range 32).map (fun k => v.extractLsb' (8 * (31 - k)) 8)

/-! ## The end of a command (R34, R240, R248) -/

/-- The 3-bit code of `STATUS.ERR` (R241). -/
def errBits : ErrCode → BitVec 3
  | .ok => 0
  | .zeroModulus => 1
  | .baseRange => 2
  | .length => 3
  | .illegal => 4
  | .bufRange => 5

/-- What the hidden state holds after the `k`-th completion: free values (R32, assumption log 5). -/
def freeHidden (k : Nat) : Hidden where
  p := Config.freeP k
  mxAcc := Config.freeMxAcc k
  mxSq := Config.freeMxSq k
  mxT := Config.freeMxT k
  mxI := Config.freeMxI k
  rem := Config.freeRem k
  latchA := Config.freeLatchA k
  latchB := Config.freeLatchB k
  latchN := Config.freeLatchN k
  latchBytes := Config.freeLatchBytes k

/-- The end of a completion with the error code `code` (R34): `STATUS.ERR <- code`, `phase <- IDLE`; the hidden state becomes
any value (R32); the busy cycles that were left have passed (R276, assumption log 3). -/
def State.finish (s : State) (code : ErrCode) : State :=
  { s with
    err := code
    phase := .idle
    hidden := freeHidden s.freeCount
    freeCount := s.freeCount + 1
    clock := s.clock + s.left
    left := 0 }

/-- `complete` (R8): end the command as a success. -/
def State.complete (s : State) : Result := .next (s.finish .ok)

/-- `raise Fail(code)` (R8, R240, R248): end the command as a failure. No register, flag or byte of `BUF` is written, and
control goes nowhere: the next accepted command simply runs, so there is no return operation (R249). -/
def State.raiseFail (s : State) (code : ErrCode) : Result := .next (s.finish code)

/-! ## Status and flags as the host reads them (R27, R28) -/

/-- `STATUS.BUSY`, and the `busy` pin: 1 exactly when `phase = EXEC` (R28, R31, R61). -/
def State.busy (s : State) : Bool := decide (s.phase = .exec)

/-- The 64-bit value of `STATUS`: `BUSY` in bit 0, `ERR` in bits 6:4, all other bits 0 (R28, R68). -/
def State.statusWord (s : State) : Limb := BitVec.ofNat 64 (s.busy.toNat + 16 * (errBits s.err).toNat)

/-- The 64-bit value of `FLAGS`: `C` in bit 0, `LT` in bit 1, all other bits 0 (R27, R68). -/
def State.flagsWord (s : State) : Limb := BitVec.ofNat 64 (s.flagC.toNat + 2 * s.flagLT.toNat)

end Sys2Proof.Machine
end

