-- ==== Sys2Proof/Machine/Trace.lean ====
section
/-! DEFINITION. Datapath operations and computations that record them: what the trace law of spec 70_reset_and_hazards.md
R277 is stated about. A trace is no state of the machine (assumption log 16). -/

namespace Sys2Proof.Machine

/-- One operation of a reference datapath (R277): "which limb stages, which limb products, which reduction iterations, which
selects, which `BUF` addresses, in what order". -/
inductive MicroOp where
  /-- the adder stage of limb `j` (R140, R141) -/
  | adc (j : Nat)
  /-- the subtractor stage of limb `j`; stage 4 is the one-bit fifth stage of the reduction datapath (R142, R174) -/
  | sbb (j : Nat)
  /-- the multiply-accumulate of limb `i` of the first factor and limb `j` of the second (R161, R162) -/
  | mac (i j : Nat)
  /-- the shift that opens the reduction iteration for dividend bit `i` (R174) -/
  | shift (i : Nat)
  /-- a mask select (R9) -/
  | select
  /-- the test of a modulus for zero, over all 256 bits (R242) -/
  | zeroTest
  /-- a read of one byte of `BUF` (R223) -/
  | bufRead (addr : Nat)
  /-- a write of one byte of `BUF` (R223) -/
  | bufWrite (addr : Nat)
deriving DecidableEq, Repr

/-- A value together with the datapath operations that computed it, in order. -/
structure Traced (α : Type) where
  val : α
  ops : List MicroOp
deriving DecidableEq, Repr

/-- A value that took no datapath operation. -/
def Traced.pure {α : Type} (a : α) : Traced α := ⟨a, []⟩

/-- A value that took one datapath operation. -/
def Traced.op {α : Type} (o : MicroOp) (a : α) : Traced α := ⟨a, [o]⟩

/-- One computation after another: the operations follow in order. -/
def Traced.bind {α β : Type} (x : Traced α) (f : α → Traced β) : Traced β :=
  ⟨(f x.val).val, x.ops ++ (f x.val).ops⟩

/-- A function of the value that takes no operation of its own. -/
def Traced.map {α β : Type} (f : α → β) (x : Traced α) : Traced β := ⟨f x.val, x.ops⟩

end Sys2Proof.Machine
end

