-- ==== Sys2Proof/Machine/Flags.lean ====
section
/-! DEFINITION. The carry and borrow chains that make `FLAGS.C` and `FLAGS.LT` (spec 40_addsub.md R140 to R143,
45_compare.md R231), with the stages they run. -/

namespace Sys2Proof.Machine

/-- `adc64(x, y, cin) = (cout, s)` (R141). -/
def adc64 (x y : Limb) (cin : Bool) : Bool × Limb :=
  let t := x.toNat + y.toNat + cin.toNat
  (decide (t / 2 ^ 64 = 1), BitVec.ofNat 64 (t % 2 ^ 64))

/-- `sbb64(x, y, bin) = (bout, d)` (R142): `bout` says that `x - y - bin` is negative, and `d` is that difference with
`bout * 2^64` added. -/
def sbb64 (x y : Limb) (bin : Bool) : Bool × Limb :=
  let bout := decide (x.toNat < y.toNat + bin.toNat)
  (bout, BitVec.ofNat 64 (x.toNat + 2 ^ 64 * bout.toNat - (y.toNat + bin.toNat)))

/-- The adder stage of limb `j` of `a` and `b` (R140). -/
def adcStage (a b : Narrow) (j : Nat) (cin : Bool) : Traced (Bool × Limb) :=
  Traced.op (.adc j) (adc64 (limb a j) (limb b j) cin)

/-- The subtractor stage of limb `j` of `a` and `b` (R140). -/
def sbbStage (a b : Narrow) (j : Nat) (bin : Bool) : Traced (Bool × Limb) :=
  Traced.op (.sbb j) (sbb64 (limb a j) (limb b j) bin)

/-- The ripple adder (R140, R144): all four stages, low limb first, carry into limb 0 zero; the carry out of limb 3 and the
256-bit sum. -/
def rippleAdd (a b : Narrow) : Traced (Bool × Narrow) :=
  (adcStage a b 0 false).bind fun s0 =>
  (adcStage a b 1 s0.1).bind fun s1 =>
  (adcStage a b 2 s1.1).bind fun s2 =>
  (adcStage a b 3 s2.1).map fun s3 =>
  (s3.1, natOfLimbs s0.2 s1.2 s2.2 s3.2)

/-- The ripple subtractor (R140, R146): all four stages, low limb first, borrow into limb 0 zero; the borrow out of limb 3
and the 256-bit difference. -/
def rippleSub (a b : Narrow) : Traced (Bool × Narrow) :=
  (sbbStage a b 0 false).bind fun d0 =>
  (sbbStage a b 1 d0.1).bind fun d1 =>
  (sbbStage a b 2 d1.1).bind fun d2 =>
  (sbbStage a b 3 d2.1).map fun d3 =>
  (d3.1, natOfLimbs d0.2 d1.2 d2.2 d3.2)

/-- `a < b` by the borrow of the full four-limb subtraction, never by an early exit (R192, R230, R231). -/
def borrowLess (a b : Narrow) : Bool := (rippleSub a b).val.1

end Sys2Proof.Machine
end

