-- ==== Sys2Proof/Machine/AddSub.lean ====
section
/-! DEFINITION. `ADD` and `SUB` (spec 40_addsub.md). -/

namespace Sys2Proof.Machine

/-- `ADD rd, ra, rb` (R144): the sum modulo 2^256 and the carry out of limb 3; never fails (R149). -/
def execAdd (rd ra rb : RegField) (s : State) : Result :=
  let sum := (rippleAdd (s.readN ra) (s.readN rb)).val
  ((s.writeN rd sum.2).setC sum.1).complete

/-- `SUB rd, ra, rb` (R146): the difference modulo 2^256 and the borrow out of limb 3; never fails (R149). -/
def execSub (rd ra rb : RegField) (s : State) : Result :=
  let diff := (rippleSub (s.readN ra) (s.readN rb)).val
  ((s.writeN rd diff.2).setC diff.1).complete

end Sys2Proof.Machine
end

