-- ==== Sys2Proof/Machine/Compare.lean ====
section
/-! DEFINITION. `LT` (spec 45_compare.md). -/

namespace Sys2Proof.Machine

/-- `LT ra, rb` (R231): `FLAGS.LT` is the borrow out of `r[ra] - r[rb]`; the difference is thrown away. -/
def execLt (ra rb : RegField) (s : State) : Result :=
  (s.setLT (borrowLess (s.readN ra) (s.readN rb))).complete

end Sys2Proof.Machine
end

