-- ==== Sys2Proof/Machine/Operands.lean ====
section
/-! DEFINITION. The operand forms of a command word (spec 30_encoding.md R104, R105) and the runs of `BUF` the conversion
commands address (44_conversion.md R219). -/

namespace Sys2Proof.Machine

/-- The wide register a three-bit field names: 0..3, and none for 4..7 (R104, R108). -/
def wideNumber (k : RegField) : Option (BitVec 2) := if k.toNat < 4 then some (k.setWidth 2) else none

/-- The effective exponent `e = b mod 2^bbits` (R191 (b)). -/
def effectiveExponent (b : Narrow) (bbits : Nat) : Nat := b.toNat % 2 ^ bbits

/-- The run `BUF[addr .. addr+len-1]` lies inside `BUF`: addresses never wrap (R76, R219). -/
def runInside (addr len : Nat) : Bool := decide (addr + len ≤ 256)

end Sys2Proof.Machine
end

