-- ==== Sys2Proof/Machine/Conversion.lean ====
section
/-! DEFINITION. `FROMBF`, `FROMBV` and `TOB` (spec 44_conversion.md). -/

namespace Sys2Proof.Machine

/-- The parse both `FROMBF` and `FROMBV` end in (R212, R214): the run must lie inside `BUF` (R219), and its bytes, most
significant first, become the whole of `r[rd]`. -/
def parseInto (rd : RegField) (addr len : Nat) (s : State) : Result :=
  if runInside addr len then
    match s.memRead addr len with
    | .ok bs => (s.writeN rd (BitVec.ofNat 256 (beNat bs))).complete
    | .error f => .fault f
  else s.raiseFail .bufRange

/-- `FROMBF rd, addr, len` (R212): the fixed-size path takes exactly 32 bytes; length is checked before the run (R221). -/
def execFrombf (rd : RegField) (addr : BitVec 8) (len : BitVec 6) (s : State) : Result :=
  if len.toNat = 32 then parseInto rd addr.toNat 32 s else s.raiseFail .length

/-- `FROMBV rd, addr, len` (R214): the variable-length path takes 0 to 32 bytes; length is checked before the run (R221). -/
def execFrombv (rd : RegField) (addr : BitVec 8) (len : BitVec 6) (s : State) : Result :=
  if len.toNat ≤ 32 then parseInto rd addr.toNat len.toNat s else s.raiseFail .length

/-- `TOB rs, addr` (R216): the 32 big-endian bytes of `r[rs]` at `BUF[addr .. addr+31]`. -/
def execTob (rs : RegField) (addr : BitVec 8) (s : State) : Result :=
  if runInside addr.toNat 32 then
    match s.memWrite addr.toNat (beBytes32 (s.readN rs)) with
    | .ok t => t.complete
    | .error f => .fault f
  else s.raiseFail .bufRange

end Sys2Proof.Machine
end

