-- ==== Sys2Proof/Machine/Mod.lean ====
section
/-! DEFINITION. `MOD` and `MODW` (spec 42_mod.md), by their normative value (R176, R178); the division loop of R174 is in
Machine/Datapath.lean. -/

namespace Sys2Proof.Machine

/-- `a mod n` of a dividend of any width, for `n` not zero a value below `n` (R176). -/
def residue {w : Nat} (a : BitVec w) (n : Narrow) : Narrow := BitVec.ofNat 256 (a.toNat % n.toNat)

/-- The shared rule of `MOD` and `MODW` (R172, R173): the zero modulus fails with code 1, else `r[rd] = a mod n`. -/
def reduceInto {w : Nat} (rd : RegField) (a : BitVec w) (n : Narrow) (s : State) : Result :=
  if n = 0 then s.raiseFail .zeroModulus else (s.writeN rd (residue a n)).complete

/-- `MOD rd, ra, rn` (R172): a 256-bit dividend. -/
def execMod (rd ra rn : RegField) (s : State) : Result :=
  reduceInto rd (s.readN ra) (s.readN rn) s

/-- `MODW rd, wa, rn` (R173): a 512-bit dividend; a wide number 4..7 is illegal (R108, assumption log 10). -/
def execModw (rd wa rn : RegField) (s : State) : Result :=
  match wideNumber wa with
  | some k => reduceInto rd (s.readW k) (s.readN rn) s
  | none => s.raiseFail .illegal

end Sys2Proof.Machine
end

