-- ==== Sys2Proof/Machine/Mul.lean ====
section
/-! DEFINITION. `MUL` (spec 41_mul.md), by its normative value (R163, R164); the schoolbook loop of R162 is in
Machine/Datapath.lean. -/

namespace Sys2Proof.Machine

/-- The exact 512-bit product (R163). -/
def product (x y : Narrow) : Wide := BitVec.ofNat 512 (x.toNat * y.toNat)

/-- `MUL wd, ra, rb` (R162, R163): never fails once the word is legal (R166); a wide number 4..7 is illegal (R108,
assumption log 10). -/
def execMul (wd ra rb : RegField) (s : State) : Result :=
  match wideNumber wd with
  | some k => (s.writeW k (product (s.readN ra) (s.readN rb))).complete
  | none => s.raiseFail .illegal

end Sys2Proof.Machine
end

