-- ==== Sys2Proof/Machine/Modexp.lean ====
section
/-! DEFINITION. `MODEXP` (spec 43_modexp.md): the checks of R192 and the controller of R197 over the hidden variables, with
product and reduction by their values (R195). -/

namespace Sys2Proof.Machine

/-- `ct_select(c, x, y)` in the mask form (R9). -/
def ctSelect {n : Nat} (c : Bool) (x y : BitVec n) : BitVec n :=
  let mask := BitVec.ofNat n ((2 ^ n - 1) * c.toNat)
  (x &&& mask) ||| (y &&& ~~~mask)

/-- `MX_INIT` (R197). -/
def mxInit (n : Narrow) (bbits : Nat) (h : Hidden) : Hidden :=
  { h with mxAcc := residue (1 : Narrow) n, mxI := BitVec.ofNat 9 bbits }

/-- `MX_SQ` (R195, R197): the square passes through `P`. -/
def mxSquare (n : Narrow) (h : Hidden) : Hidden :=
  let h := { h with p := product h.mxAcc h.mxAcc }
  { h with mxSq := residue h.p n }

/-- `MX_MUL` (R195, R197): the product with the base passes through `P`, whatever the exponent bit is. -/
def mxMultiply (a n : Narrow) (h : Hidden) : Hidden :=
  let h := { h with p := product h.mxSq a }
  { h with mxT := residue h.p n }

/-- `MX_SEL` (R197). -/
def mxChoose (b : Narrow) (h : Hidden) : Hidden :=
  { h with mxAcc := ctSelect (b.getLsbD h.mxI.toNat) h.mxT h.mxSq }

/-- One iteration of `MX_LOOP` (R197): the index counts down, then square, multiply, select. -/
def mxIteration (a b n : Narrow) (h : Hidden) : Hidden :=
  mxChoose b (mxMultiply a n (mxSquare n { h with mxI := h.mxI - 1 }))

/-- `k` iterations of `MX_LOOP` (R197). -/
def mxLoop (a b n : Narrow) : Nat → Hidden → Hidden
  | 0, h => h
  | k + 1, h => mxLoop a b n k (mxIteration a b n h)

/-- The controller from `MX_INIT` to `MX_DONE` (R197): exactly `bbits` iterations; the result is the accumulator. -/
def mxRun (a b n : Narrow) (bbits : Nat) (h : Hidden) : Narrow :=
  (mxLoop a b n bbits (mxInit n bbits h)).mxAcc

/-- The shared rule of both rows of `MODEXP` (R192): zero modulus first (R194), then the base range by the borrow of a full
subtraction, then the controller. -/
def modexpInto (rd ra rb rn : RegField) (bbits : Nat) (s : State) : Result :=
  let a := s.readN ra
  let b := s.readN rb
  let n := s.readN rn
  if n = 0 then s.raiseFail .zeroModulus
  else if borrowLess a n = false then s.raiseFail .baseRange
  else (s.writeN rd (mxRun a b n bbits s.hidden)).complete

/-- `MODEXP rd, ra, rb, rn, bbits` for `bbits` 0..255 (R192). -/
def execModexp (rd ra rb rn : RegField) (bbits : BitVec 8) (s : State) : Result :=
  modexpInto rd ra rb rn bbits.toNat s

/-- `MODEXP rd, ra, rb, rn, 256` (R192). -/
def execModexp256 (rd ra rb rn : RegField) (s : State) : Result :=
  modexpInto rd ra rb rn 256 s

end Sys2Proof.Machine
end

