-- ==== Sys2Proof/Machine/Dispatch.lean ====
section
/-! DEFINITION. One arm per command: the `Complete` step of a decoded command (spec 10_state.md R34). -/

namespace Sys2Proof.Machine

def exec (i : Instr) (s : State) : Host.Outcome State Fault Refusal :=
  match i with
  | .add rd ra rb => Sys2Proof.Machine.execAdd rd ra rb s
  | .sub rd ra rb => Sys2Proof.Machine.execSub rd ra rb s
  | .lt ra rb => Sys2Proof.Machine.execLt ra rb s
  | .mul wd ra rb => Sys2Proof.Machine.execMul wd ra rb s
  | .mod rd ra rn => Sys2Proof.Machine.execMod rd ra rn s
  | .modw rd wa rn => Sys2Proof.Machine.execModw rd wa rn s
  | .modexp rd ra rb rn bbits => Sys2Proof.Machine.execModexp rd ra rb rn bbits s
  | .modexp256 rd ra rb rn => Sys2Proof.Machine.execModexp256 rd ra rb rn s
  | .frombf rd addr len => Sys2Proof.Machine.execFrombf rd addr len s
  | .frombv rd addr len => Sys2Proof.Machine.execFrombv rd addr len s
  | .tob rs addr => Sys2Proof.Machine.execTob rs addr s

end Sys2Proof.Machine
end

