-- ==== Sys2Proof/Machine/Port.lean ====
section
/-! DEFINITION. The host port (spec 20_memory.md R60 to R75), acceptance, hold and completion (10_state.md R33 to R35), reset
(70_reset_and_hazards.md R270, R272), and what one step of the block with its environment is. -/

namespace Sys2Proof.Machine

/-! ## The engine -/

/-- The `Complete` step (R34): decode `cur_cmd`; an illegal word completes with `ERR_ILLEGAL` and changes nothing else
(R110, R246); a command runs its rule. -/
def engineComplete (s : State) : Result :=
  match decode s.curCmd with
  | .ok i => exec i s
  | .error _ => s.raiseFail .illegal

/-- The error code the pending command completes with. While it is pending nothing it reads can change (R35), so this is
known at its acceptance. -/
def pendingCode (s : State) : ErrCode :=
  match engineComplete s with
  | .next t => t.err
  | .fault _ => .ok
  | .refused _ => .ok

/-- Acceptance of a command word (R33): `cur_cmd <- w`, `phase <- EXEC`, nothing else the host can see. The busy cycles to
come are those of `LAT` for the word and its error code (R276, assumption log 3). -/
def acceptCommand (w : CmdWord) (s : State) : State :=
  let t := { s with curCmd := w, phase := .exec }
  { t with left := Config.busyCycles w (errBits (pendingCode t)) }

/-! ## Host transactions -/

/-- The `BUF` window's doubleword over `BUF[a .. a+7]`: the byte at the lower address in the lower bits (R64, R72). -/
def windowRead (m : Memory) (a : Nat) : Limb :=
  BitVec.ofNat 64 ((m.byteAt a).toNat + 2 ^ 8 * (m.byteAt (a + 1)).toNat + 2 ^ 16 * (m.byteAt (a + 2)).toNat +
    2 ^ 24 * (m.byteAt (a + 3)).toNat + 2 ^ 32 * (m.byteAt (a + 4)).toNat + 2 ^ 40 * (m.byteAt (a + 5)).toNat +
    2 ^ 48 * (m.byteAt (a + 6)).toNat + 2 ^ 56 * (m.byteAt (a + 7)).toNat)

/-- The eight bytes of a doubleword written through the window, lowest address first: byte `t` is `d[8t+7 : 8t]` (R64,
R69). -/
def windowBytes (d : Limb) : List Byte := (List.range 8).map (fun t => d.extractLsb' (8 * t) 8)

/-- `HostRead(addr)` (R68): the data and the bus error; changes no state. -/
def hostRead (s : State) (addr : BusAddr) : Limb × Bool :=
  if addr.extractLsb' 0 3 ≠ 0 then (0, true)
  else if addr.toNat < 0x100 then (limb (s.readN (addr.extractLsb' 5 3)) (addr.extractLsb' 3 2).toNat, false)
  else if addr.toNat < 0x200 then (limb (s.readW (addr.extractLsb' 6 2)) (addr.extractLsb' 3 3).toNat, false)
  else if addr.toNat < 0x300 then (windowRead s.buf (8 * (addr.extractLsb' 3 5).toNat), false)
  else if addr.toNat = 0x300 then (0, false)
  else if addr.toNat = 0x308 then (s.statusWord, false)
  else if addr.toNat = 0x310 then (s.flagsWord, false)
  else (0, true)

/-- `HostWrite(addr, d)` (R69): the state after it and the bus error. -/
def hostWrite (s : State) (addr : BusAddr) (d : Limb) : State × Bool :=
  if addr.extractLsb' 0 3 ≠ 0 then (s, true)
  else if addr.toNat < 0x100 then
    let i := addr.extractLsb' 5 3
    (s.writeN i (setLimb (s.readN i) (addr.extractLsb' 3 2).toNat d), false)
  else if addr.toNat < 0x200 then
    let k := addr.extractLsb' 6 2
    (s.writeW k (setLimb (s.readW k) (addr.extractLsb' 3 3).toNat d), false)
  else if addr.toNat < 0x300 then
    ({ s with buf := s.buf.putRun (8 * (addr.extractLsb' 3 5).toNat) (windowBytes d) }, false)
  else if addr.toNat = 0x300 then (acceptCommand (wordOfBus d) s, false)
  else (s, true)

/-- An accepted read: its reply, one cycle (R61, R68). -/
def acceptRead (addr : BusAddr) (s : State) : State :=
  { s with reply := some (.read (hostRead s addr).1 (hostRead s addr).2), clock := s.clock + 1 }

/-- An accepted write: its effect, its reply, one cycle (R61, R69). -/
def acceptWrite (addr : BusAddr) (d : Limb) (s : State) : State :=
  { (hostWrite s addr d).1 with reply := some (.write (hostWrite s addr d).2), clock := s.clock + 1 }

/-- `h_ready` while the environment does `e` (R67): 1 for every transaction when idle, 1 only for a read of `STATUS` while a
command runs, 0 while `rst` is 1. With no transaction presented its value has no effect. -/
def State.hReady (s : State) (e : HostEvent) : Bool :=
  match e with
  | .reset => false
  | .read addr => !s.busy || decide (addr = 0x308)
  | .write _ _ => !s.busy
  | .idle => !s.busy
  | .await => !s.busy

/-- The `busy` pin while the environment does `e` (R61, R270): `STATUS.BUSY`, and 0 while `rst` is 1. -/
def State.busyPin (s : State) (e : HostEvent) : Bool :=
  match e with
  | .reset => false
  | .read _ => s.busy
  | .write _ _ => s.busy
  | .idle => s.busy
  | .await => s.busy

/-! ## One step -/

/-- One cycle with `rst` = 1 (R270, R272): the whole state of the block takes its reset value, whatever it was doing. The
environment and the count of cycles are no state of the block (assumption log 13). -/
def resetCycle (s : State) : State :=
  { State.reset with port := s.port, clock := s.clock + 1, freeCount := s.freeCount }

/-- One cycle in which no transaction is presented and no command completes. -/
def quietCycle (s : State) : State := { s with clock := s.clock + 1 }

/-- A step while the engine is idle: the presented transaction is accepted (R67); the engine has no step (R34). -/
def idleStep (e : HostEvent) (s : State) : State :=
  match e with
  | .reset => resetCycle s
  | .idle => quietCycle s
  | .await => quietCycle s
  | .read addr => acceptRead addr s
  | .write addr d => acceptWrite addr d s

/-- What the environment's event does in a cycle before the completion, if it takes effect there at all (R35): `rst`, an
idle cycle, a read of `STATUS`. Every other transaction is held, and none of these but `rst` falls after the last busy
cycle. -/
def busyStep (e : HostEvent) (s : State) : Option State :=
  match e with
  | .reset => some (resetCycle s)
  | .idle => if 0 < s.left then some { quietCycle s with left := s.left - 1 } else none
  | .read addr =>
    if addr = 0x308 then
      if 0 < s.left then some { acceptRead addr s with left := s.left - 1 } else none
    else none
  | .await => none
  | .write _ _ => none

/-- One step of the block with its environment. While idle the next event takes effect; with no event left a quiet cycle
passes (R281). While a command runs the next event takes effect if it can before the completion, and otherwise it is held and
the engine completes (R34, R35). -/
def portStep (s : State) : Result :=
  match s.phase, s.port with
  | .idle, [] => .next (quietCycle s)
  | .idle, e :: rest => .next (idleStep e { s with port := rest })
  | .exec, [] => engineComplete s
  | .exec, e :: rest =>
    match busyStep e { s with port := rest } with
    | some t => .next t
    | none => engineComplete s

end Sys2Proof.Machine
end

