-- ==== Sys2Proof/Machine/Step.lean ====
section
/-! DEFINITION. One step of the machine, and the placing of an instruction where the next step runs it. -/

namespace Sys2Proof.Machine

/-- One step (spec 10_state.md R33 to R35, 20_memory.md R67, 70_reset_and_hazards.md R270). -/
def step (s : State) : Host.Outcome State Fault Refusal := portStep s

/-- `s` right after the acceptance of the command word `w` (R33): the word in `cur_cmd`, the engine in `EXEC`, and an
environment that presents nothing until the completion, so that the very next step is the `Complete` step of `w`. It stands
for the host's write to `CMD` (assumption log 1). -/
def State.withFetchWord (s : State) (nbits w : Nat) : State :=
  { s with
    curCmd := BitVec.ofNat 32 (w % 2 ^ nbits)
    phase := .exec
    port := .await :: s.port }

end Sys2Proof.Machine
end

