-- ==== Sys2Proof/Machine/Datapath.lean ====
section
/-! DEFINITION. The reference datapaths of the spec with their operation traces: schoolbook multiplication (41_mul.md R162),
restoring division (42_mod.md R174), the exponentiation controller over them (43_modexp.md R197). exec computes by the
normative values (R164, R178, R202); these are what the trace law R277 speaks of (assumption log 9, 16). -/

namespace Sys2Proof.Machine

/-! ## The multiplier (R160 to R162) -/

/-- `mac64(x, y, acc, cin) = (hi, lo)` (R161). -/
def mac64 (x y acc cin : Limb) : Limb × Limb :=
  let t := x.toNat * y.toNat + acc.toNat + cin.toNat
  (BitVec.ofNat 64 (t / 2 ^ 64), BitVec.ofNat 64 (t % 2 ^ 64))

/-- The multiply-accumulate of limb `i` of `a` and limb `j` of `b` into limb `i + j` of `p`: the new `p` and the carry
(R162). -/
def macStage (a b : Narrow) (i j : Nat) (pc : Wide × Limb) : Traced (Wide × Limb) :=
  Traced.op (.mac i j)
    (let t := mac64 (limb a i) (limb b j) (limb pc.1 (i + j)) pc.2
     (setLimb pc.1 (i + j) t.2, t.1))

/-- Pass `i` of the schoolbook loop (R162): four limb products, low limb first, then `p[i+4] = carry`. -/
def macPass (a b : Narrow) (i : Nat) (p : Wide) : Traced Wide :=
  (macStage a b i 0 (p, 0)).bind fun t0 =>
  (macStage a b i 1 t0).bind fun t1 =>
  (macStage a b i 2 t1).bind fun t2 =>
  (macStage a b i 3 t2).map fun t3 => setLimb t3.1 (i + 4) t3.2

/-- The schoolbook multiplier (R162): all sixteen limb pairs, zero limbs included. -/
def schoolbook (a b : Narrow) : Traced Wide :=
  (macPass a b 0 0).bind fun p0 =>
  (macPass a b 1 p0).bind fun p1 =>
  (macPass a b 2 p1).bind fun p2 =>
  macPass a b 3 p2

/-! ## The reduction engine (R174) -/

/-- The one-bit fifth stage of the 257-bit subtraction: the top bit of the minuend less a borrow, with its own borrow out
(R174). -/
def topStage (x : Bool) (bin : Bool) : Traced (Bool × Bool) := Traced.op (.sbb 4) (!x && bin, x != bin)

/-- The 257-bit subtraction `x - n`: the chain of four limb stages and the one-bit fifth (R174). -/
def sub257 (x : BitVec 257) (n : Narrow) : Traced (Bool × BitVec 257) :=
  (rippleSub (x.setWidth 256) n).bind fun d =>
  (topStage (x.getLsbD 256) d.1).map fun t => (t.1, BitVec.ofNat 257 (d.2.toNat + 2 ^ 256 * t.2.toNat))

/-- One iteration for dividend bit `i` (R174): shift the bit in, subtract the modulus, select by the borrow. -/
def reduceIteration (bit : Bool) (i : Nat) (n : Narrow) (rem : BitVec 257) : Traced (BitVec 257) :=
  (Traced.op (.shift i) (BitVec.ofNat 257 (2 * rem.toNat + bit.toNat))).bind fun rem2 =>
  (sub257 rem2 n).bind fun bd =>
  Traced.op .select (ctSelect (!bd.1) bd.2 rem2)

/-- The iterations for the dividend bits `k - 1` down to 0 (R174). -/
def reduceLoop {w : Nat} (a : BitVec w) (n : Narrow) : Nat → BitVec 257 → Traced (BitVec 257)
  | 0, rem => Traced.pure rem
  | k + 1, rem => (reduceIteration (a.getLsbD k) k n rem).bind (reduceLoop a n k)

/-- `reduce(a, nbits, n)` with `nbits` the width of `a` (R174): always that many iterations. -/
def reduce {w : Nat} (a : BitVec w) (n : Narrow) : Traced Narrow :=
  (reduceLoop a n w 0).map (fun rem => rem.setWidth 256)

/-- `modmul(x, y, n) = reduce(x * y, 512, n)` on the reference datapaths (R195). -/
def modmul (x y n : Narrow) : Traced Narrow := (schoolbook x y).bind (fun p => reduce p n)

/-! ## The exponentiation controller (R197, R199) -/

/-- One iteration on the reference datapaths for exponent bit `i` (R197): square, always multiply, select. -/
def expIteration (a b n : Narrow) (i : Nat) (acc : Narrow) : Traced Narrow :=
  (modmul acc acc n).bind fun sq =>
  (modmul sq a n).bind fun t =>
  Traced.op .select (ctSelect (b.getLsbD i) t sq)

/-- The iterations for the exponent bits `k - 1` down to 0 (R197). -/
def expLoop (a b n : Narrow) : Nat → Narrow → Traced Narrow
  | 0, acc => Traced.pure acc
  | k + 1, acc => (expIteration a b n k acc).bind (expLoop a b n k)

/-- The controller on the reference datapaths (R197). -/
def expRun (a b n : Narrow) (bbits : Nat) : Traced Narrow :=
  (reduce (1 : Narrow) n).bind (expLoop a b n bbits)

/-! ## What the traces are (R162, R174, R199) -/

/-- The sixteen limb products of a product, in order (R162). -/
def productOps : List MicroOp :=
  (List.range 4).flatMap fun i => (List.range 4).map fun j => MicroOp.mac i j

/-- The operations of the reduction iterations for the bits `k - 1` down to 0 (R174). -/
def reduceOps : Nat → List MicroOp
  | 0 => []
  | k + 1 => [.shift k, .sbb 0, .sbb 1, .sbb 2, .sbb 3, .sbb 4, .select] ++ reduceOps k

/-- The operations of one exponent iteration (R199): product, 512-bit reduction, product, 512-bit reduction, select. -/
def expIterationOps : List MicroOp := productOps ++ reduceOps 512 ++ productOps ++ reduceOps 512 ++ [.select]

/-- The operations of `k` exponent iterations (R199). -/
def expLoopOps : Nat → List MicroOp
  | 0 => []
  | k + 1 => expIterationOps ++ expLoopOps k

end Sys2Proof.Machine
end

