-- ==== Sys2Proof/Machine/Reference.lean ====
section
/-! DEFINITION. Each command run on the reference datapaths, with the trace of datapath operations it performs (spec
70_reset_and_hazards.md R277). The outcome is meant to be exec's; the trace is what R277 says depends on the command word and
the outcome of the failure checks alone (assumption log 16). -/

namespace Sys2Proof.Machine

/-- A command that ends at once as a failure: no datapath operation. -/
def failTraced (s : State) (code : ErrCode) : Traced Result := Traced.pure (s.raiseFail code)

/-- `MOD` and `MODW` on the reference reduction (R172, R173, R174). -/
def reduceIntoTraced {w : Nat} (rd : RegField) (a : BitVec w) (n : Narrow) (s : State) : Traced Result :=
  (Traced.op .zeroTest (decide (n = 0))).bind fun zero =>
  if zero then failTraced s .zeroModulus else (reduce a n).map fun v => (s.writeN rd v).complete

/-- `MODEXP` on the reference controller (R192, R197): the base check is a full four-limb subtraction. -/
def modexpTraced (rd ra rb rn : RegField) (bbits : Nat) (s : State) : Traced Result :=
  let a := s.readN ra
  let b := s.readN rb
  let n := s.readN rn
  (Traced.op .zeroTest (decide (n = 0))).bind fun zero =>
  if zero then failTraced s .zeroModulus
  else (rippleSub a n).bind fun d =>
    if d.1 then (expRun a b n bbits).map fun v => (s.writeN rd v).complete else failTraced s .baseRange

/-- A parse: one read for each byte of the run, lowest address first (R223). -/
def parseTraced (rd : RegField) (addr len : Nat) (s : State) : Traced Result :=
  if runInside addr len then ⟨parseInto rd addr len s, (List.range len).map fun k => .bufRead (addr + k)⟩
  else failTraced s .bufRange

/-- The command `i` on the reference datapaths. -/
def execTraced (i : Instr) (s : State) : Traced Result :=
  match i with
  | .add rd ra rb => (rippleAdd (s.readN ra) (s.readN rb)).map fun r => ((s.writeN rd r.2).setC r.1).complete
  | .sub rd ra rb => (rippleSub (s.readN ra) (s.readN rb)).map fun r => ((s.writeN rd r.2).setC r.1).complete
  | .lt ra rb => (rippleSub (s.readN ra) (s.readN rb)).map fun r => (s.setLT r.1).complete
  | .mul wd ra rb =>
    match wideNumber wd with
    | some k => (schoolbook (s.readN ra) (s.readN rb)).map fun p => (s.writeW k p).complete
    | none => failTraced s .illegal
  | .mod rd ra rn => reduceIntoTraced rd (s.readN ra) (s.readN rn) s
  | .modw rd wa rn =>
    match wideNumber wa with
    | some k => reduceIntoTraced rd (s.readW k) (s.readN rn) s
    | none => failTraced s .illegal
  | .modexp rd ra rb rn bbits => modexpTraced rd ra rb rn bbits.toNat s
  | .modexp256 rd ra rb rn => modexpTraced rd ra rb rn 256 s
  | .frombf rd addr len => if len.toNat = 32 then parseTraced rd addr.toNat 32 s else failTraced s .length
  | .frombv rd addr len => if len.toNat ≤ 32 then parseTraced rd addr.toNat len.toNat s else failTraced s .length
  | .tob rs addr =>
    if runInside addr.toNat 32 then ⟨execTob rs addr s, (List.range 32).map fun k => .bufWrite (addr.toNat + k)⟩
    else failTraced s .bufRange

end Sys2Proof.Machine
end

