-- ==== Sys2Proof/Safety.lean ====
section
/-! DEFINITION. What a good state and a safe run are, which locations a command reads and writes (spec 10_state.md R25), and
the other terms the statements use. -/

namespace Sys2Proof.Machine

/-! ## Good states and safe runs -/

/-- A good state: `BUF` is in canonical form inside 0..255, and no busy cycle is outstanding while the engine is idle. -/
abbrev State.Inv (s : State) : Prop := s.buf.wf ∧ (s.phase = .idle → s.left = 0)

/-- The next `k` steps all answer a next state: neither a fault nor a refusal stops the machine. -/
def safeFor : Nat → State → Prop
  | 0, _ => True
  | k + 1, s => ∃ t, step s = .next t ∧ safeFor k t

/-- `u` is the state after exactly `k` steps from `s`. -/
def reaches : Nat → State → State → Prop
  | 0, s, u => u = s
  | k + 1, s, u => ∃ t, step s = .next t ∧ reaches k t u

/-! ## What stays as it was -/

/-- Every narrow register reads as before. -/
def SameNarrow (s t : State) : Prop := ∀ i, t.readN i = s.readN i

/-- Every narrow register but `rd` reads as before. -/
def SameNarrowBut (rd : RegField) (s t : State) : Prop := ∀ i, i ≠ rd → t.readN i = s.readN i

/-- Every wide register reads as before. -/
def SameWide (s t : State) : Prop := ∀ k, t.readW k = s.readW k

/-- Every byte of `BUF` reads as before. -/
def SameBuf (s t : State) : Prop := ∀ a, t.byteAt a = s.byteAt a

/-- Both flags are as before. -/
def SameFlags (s t : State) : Prop := t.flagC = s.flagC ∧ t.flagLT = s.flagLT

/-- `t` ends a completion with the code `code` (R34): the error code is written and the engine is idle. -/
def Completed (t : State) (code : ErrCode) : Prop := t.err = code ∧ t.phase = .idle

/-- What a completion does to the rest of the model's state, which is the model's choice: the command word stays (assumption
log 7), so do the last reply (log 14) and what the environment does next (log 1), and the busy cycles have passed (log 3). -/
def CompletionKeeps (s t : State) : Prop :=
  t.curCmd = s.curCmd ∧ t.reply = s.reply ∧ t.port = s.port ∧ t.left = 0 ∧ t.clock = s.clock + s.left

/-- The completion wrote the error code and nothing else that the host can see (R40, R248). -/
def WroteOnlyErr (s t : State) (code : ErrCode) : Prop :=
  Completed t code ∧ SameNarrow s t ∧ SameWide s t ∧ SameBuf s t ∧ SameFlags s t

/-- The error code, the phase, the command word and the rest of the hidden state are as before. -/
def SameControl (s t : State) : Prop :=
  t.err = s.err ∧ t.phase = s.phase ∧ t.curCmd = s.curCmd ∧ t.hidden = s.hidden

/-- All the state of the block that the spec names (R26 to R31) is as before. -/
def SameBlock (s t : State) : Prop :=
  SameNarrow s t ∧ SameWide s t ∧ SameBuf s t ∧ SameFlags s t ∧ SameControl s t

/-! ## The table of R25 -/

/-- The narrow register a command writes on success (R25). -/
def narrowDest : Instr → Option RegField
  | .add rd _ _ => some rd
  | .sub rd _ _ => some rd
  | .lt _ _ => none
  | .mul _ _ _ => none
  | .mod rd _ _ => some rd
  | .modw rd _ _ => some rd
  | .modexp rd _ _ _ _ => some rd
  | .modexp256 rd _ _ _ => some rd
  | .frombf rd _ _ => some rd
  | .frombv rd _ _ => some rd
  | .tob _ _ => none

/-- The wide register a command writes on success (R25). -/
def wideDest : Instr → Option (BitVec 2)
  | .mul wd _ _ => wideNumber wd
  | .add _ _ _ => none
  | .sub _ _ _ => none
  | .lt _ _ => none
  | .mod _ _ _ => none
  | .modw _ _ _ => none
  | .modexp _ _ _ _ _ => none
  | .modexp256 _ _ _ _ => none
  | .frombf _ _ _ => none
  | .frombv _ _ _ => none
  | .tob _ _ => none

/-- The command writes `FLAGS.C` (R25, R27): `ADD` and `SUB`. -/
def writesC : Instr → Bool
  | .add _ _ _ => true
  | .sub _ _ _ => true
  | .lt _ _ => false
  | .mul _ _ _ => false
  | .mod _ _ _ => false
  | .modw _ _ _ => false
  | .modexp _ _ _ _ _ => false
  | .modexp256 _ _ _ _ => false
  | .frombf _ _ _ => false
  | .frombv _ _ _ => false
  | .tob _ _ => false

/-- The command writes `FLAGS.LT` (R25, R27): `LT`. -/
def writesLT : Instr → Bool
  | .lt _ _ => true
  | .add _ _ _ => false
  | .sub _ _ _ => false
  | .mul _ _ _ => false
  | .mod _ _ _ => false
  | .modw _ _ _ => false
  | .modexp _ _ _ _ _ => false
  | .modexp256 _ _ _ _ => false
  | .frombf _ _ _ => false
  | .frombv _ _ _ => false
  | .tob _ _ => false

/-- The byte address `a` of `BUF` is one the command writes on success (R25): `BUF[addr .. addr+31]` of `TOB`. -/
def writesByte (i : Instr) (a : Nat) : Prop :=
  match i with
  | .tob _ addr => addr.toNat ≤ a ∧ a < addr.toNat + 32
  | .add _ _ _ => False
  | .sub _ _ _ => False
  | .lt _ _ => False
  | .mul _ _ _ => False
  | .mod _ _ _ => False
  | .modw _ _ _ => False
  | .modexp _ _ _ _ _ => False
  | .modexp256 _ _ _ _ => False
  | .frombf _ _ _ => False
  | .frombv _ _ _ => False

/-- Two states agree on the locations the command reads (R25). -/
def agreeOnSources (i : Instr) (s t : State) : Prop :=
  match i with
  | .add _ ra rb => s.readN ra = t.readN ra ∧ s.readN rb = t.readN rb
  | .sub _ ra rb => s.readN ra = t.readN ra ∧ s.readN rb = t.readN rb
  | .lt ra rb => s.readN ra = t.readN ra ∧ s.readN rb = t.readN rb
  | .mul _ ra rb => s.readN ra = t.readN ra ∧ s.readN rb = t.readN rb
  | .mod _ ra rn => s.readN ra = t.readN ra ∧ s.readN rn = t.readN rn
  | .modw _ wa rn => (∀ k, wideNumber wa = some k → s.readW k = t.readW k) ∧ s.readN rn = t.readN rn
  | .modexp _ ra rb rn _ => s.readN ra = t.readN ra ∧ s.readN rb = t.readN rb ∧ s.readN rn = t.readN rn
  | .modexp256 _ ra rb rn => s.readN ra = t.readN ra ∧ s.readN rb = t.readN rb ∧ s.readN rn = t.readN rn
  | .frombf _ addr len => ∀ k, k < len.toNat → s.byteAt (addr.toNat + k) = t.byteAt (addr.toNat + k)
  | .frombv _ addr len => ∀ k, k < len.toNat → s.byteAt (addr.toNat + k) = t.byteAt (addr.toNat + k)
  | .tob rs _ => s.readN rs = t.readN rs

/-- Two states hold the same values in every location the command writes on success (R25). -/
def agreeOnDests (i : Instr) (s t : State) : Prop :=
  (∀ rd, narrowDest i = some rd → s.readN rd = t.readN rd) ∧ (∀ k, wideDest i = some k → s.readW k = t.readW k) ∧
    (writesC i = true → s.flagC = t.flagC) ∧ (writesLT i = true → s.flagLT = t.flagLT) ∧
    (∀ a, writesByte i a → s.byteAt a = t.byteAt a)

/-! ## Whose turn it is -/

/-- A command runs and nothing the environment does next takes effect before its completion (R34, R35): nothing is left to
do, or the next event is a wait, a held transaction, or falls after the last busy cycle. -/
def engineTurn (s : State) : Prop :=
  s.phase = .exec ∧
    match s.port with
    | [] => True
    | .reset :: _ => False
    | .idle :: _ => s.left = 0
    | .await :: _ => True
    | .read addr :: _ => addr = 0x308 → s.left = 0
    | .write _ _ :: _ => True

end Sys2Proof.Machine
end

