-- ==== Sys2Proof/Certificates/Slice0/Obligations.lean ====
section
/-! DEFINITION. The statements for the provers. Each docstring names the rule of the spec it formalises, or the model's
assumption-log entry where a clause is the model's choice. -/

open Sys2Proof Sys2Proof.Machine

/-! ## Encoding -/

/-- R114 (and R104 for the well-formedness): decoding an encoded legal command gives it back; encoding what a legal word
decodes to gives the word back; what decodes is well-formed; the word's number is the formula of R114. -/
def Obligations.DecodeEncodeRoundTrip : Prop :=
  (∀ i : Instr, i.wellFormed = true → decode (encode i) = .ok i) ∧
  (∀ cw i, decode cw = .ok i → encode i = cw ∧ i.wellFormed = true) ∧
  (∀ i, (encode i).toNat = wordNumber i)

/-- R103: a word decodes exactly when one row of the opcode map admits it, to a command of that row, and no word is admitted
by two rows. -/
def Obligations.DecodeAgreesWithOpcodeMap : Prop :=
  (∀ cw row, row ∈ opcodeRows → row.admits cw = true → ∃ i, decode cw = .ok i ∧ rowOf i = row) ∧
  (∀ cw i, decode cw = .ok i → rowOf i ∈ opcodeRows ∧ (rowOf i).admits cw = true) ∧
  opcodeRows.Pairwise (fun p q => ∀ cw, ¬(p.admits cw = true ∧ q.admits cw = true))

/-- R112: the encoding examples of the spec decode to the commands they are written for. -/
def Obligations.SampleWordsDecode : Prop :=
  decode 0x01650000 = .ok (.add 3 1 2) ∧ decode 0x024D0000 = .ok (.sub 2 3 2) ∧ decode 0x03050000 = .ok (.lt 1 2) ∧
  decode 0x04050000 = .ok (.mul 0 1 2) ∧ decode 0x05640000 = .ok (.mod 3 1 0) ∧ decode 0x06600000 = .ok (.modw 3 0 0) ∧
  decode 0x07650003 = .ok (.modexp 3 1 2 0 3) ∧ decode 0x07650100 = .ok (.modexp256 3 1 2 0) ∧
  decode 0x08202000 = .ok (.frombf 1 0 32) ∧ decode 0x09200340 = .ok (.frombv 1 0x40 3) ∧
  decode 0x0A200020 = .ok (.tob 1 0x20)

/-- R110, R246: a word that is no command completes with code 4 and no other change. -/
def Obligations.IllegalWordWritesOnlyCode4 : Prop :=
  ∀ s, engineTurn s → (∀ i, decode s.curCmd ≠ .ok i) →
    ∃ t, step s = .next t ∧ WroteOnlyErr s t .illegal ∧ (errBits t.err).toNat = 4

/-- R108: a wide register number 4..7 makes the word illegal, for `MUL` and for `MODW`; the term itself completes as R110 says
of the word (assumption log 10). -/
def Obligations.WideNumberAbove3IsIllegal : Prop :=
  ∀ (k x y : RegField) (s : State), 4 ≤ k.toNat →
    (∃ e, decode (encode (.mul k x y)) = .error e) ∧ (∃ e, decode (encode (.modw x k y)) = .error e) ∧
    (∃ t, exec (.mul k x y) s = .next t ∧ WroteOnlyErr s t .illegal) ∧
    (∃ t, exec (.modw x k y) s = .next t ∧ WroteOnlyErr s t .illegal)

/-! ## The step -/

/-- R34: when it is the engine's turn and the accepted word decodes to a command, the step is that command's rule. -/
def Obligations.StepRunsDecodedInstruction : Prop :=
  ∀ s i, engineTurn s → decode s.curCmd = .ok i → step s = exec i s

/-- R33, R34 (assumption log 1): a well-formed command's word placed by `withFetchWord` is what the very next step runs, and
placing it leaves the registers, `BUF`, the flags and the error code alone. -/
def Obligations.FetchWordRunsNext : Prop :=
  ∀ (s : State) (i : Instr), i.wellFormed = true →
    let u := s.withFetchWord 32 (encode i).toNat
    step u = exec i u ∧ SameNarrow s u ∧ SameWide s u ∧ SameBuf s u ∧ SameFlags s u ∧ u.err = s.err

/-- R110, R280: no state stops the machine; every step answers a next state, and so does every run of steps. -/
def Obligations.NoStepStopsTheMachine : Prop :=
  (∀ s, ∃ t, step s = .next t) ∧ ∀ k s, safeFor k s

/-- R30 (addresses 0 to 255), R41 (every byte resets to zero; the canonical form is assumption log 8) and log 3: every step
keeps a good state good. -/
def Obligations.StepKeepsInv : Prop :=
  ∀ s t : State, s.Inv → step s = .next t → t.Inv

/-- The reset state is good. -/
def Obligations.ResetHasInv : Prop := State.reset.Inv

/-- R280: a command that runs has ended after at most one step more than its busy cycles (the steps are the model's,
assumption log 3). -/
def Obligations.CommandEndsWithinItsBusyCycles : Prop :=
  ∀ s : State, s.phase = .exec → ∃ k t, k ≤ s.left + 1 ∧ reaches k s t ∧ t.phase = .idle

/-! ## ADD, SUB, LT -/

/-- R145: `ADD` writes the sum modulo 2^256 and its quotient by 2^256, exactly; its sources commute; nothing else changes. -/
def Obligations.AddIsExactSum : Prop :=
  ∀ rd ra rb s,
    exec (.add rd ra rb) s = exec (.add rd rb ra) s ∧
    ∃ t, exec (.add rd ra rb) s = .next t ∧ Completed t .ok ∧
      (t.readN rd).toNat = ((s.readN ra).toNat + (s.readN rb).toNat) % 2 ^ 256 ∧
      t.flagC.toNat = ((s.readN ra).toNat + (s.readN rb).toNat) / 2 ^ 256 ∧
      (t.readN rd).toNat + 2 ^ 256 * t.flagC.toNat = (s.readN ra).toNat + (s.readN rb).toNat ∧
      SameNarrowBut rd s t ∧ SameWide s t ∧ SameBuf s t ∧ t.flagLT = s.flagLT

/-- R147: `SUB` writes the difference modulo 2^256, and the borrow exactly when the minuend is smaller; nothing else
changes. -/
def Obligations.SubIsExactDifference : Prop :=
  ∀ rd ra rb s, ∃ t, exec (.sub rd ra rb) s = .next t ∧ Completed t .ok ∧
    ((s.readN rb).toNat ≤ (s.readN ra).toNat →
      (t.readN rd).toNat = (s.readN ra).toNat - (s.readN rb).toNat ∧ t.flagC = false) ∧
    ((s.readN ra).toNat < (s.readN rb).toNat →
      (t.readN rd).toNat = (s.readN ra).toNat + 2 ^ 256 - (s.readN rb).toNat ∧ t.flagC = true) ∧
    ((t.readN rd).toNat : Int) - 2 ^ 256 * t.flagC.toNat = (s.readN ra).toNat - (s.readN rb).toNat ∧
    SameNarrowBut rd s t ∧ SameWide s t ∧ SameBuf s t ∧ t.flagLT = s.flagLT

/-- R148: `ADD t, a, b` then `SUB u, t, b` gives `u = a` for all values, and the borrow equals the carry. Where the sum is
written over `b` itself, the subtraction reads one register twice and gives 0. -/
def Obligations.AddThenSubRecovers : Prop :=
  ∀ (x u ra rb : RegField) s, ∃ t v, exec (.add x ra rb) s = .next t ∧ exec (.sub u x rb) t = .next v ∧
    (x ≠ rb → v.readN u = s.readN ra ∧ v.flagC = t.flagC) ∧ (x = rb → v.readN u = 0 ∧ v.flagC = false)

/-- R231: `LT` sets its flag exactly when the first source is smaller as an unsigned number, and changes nothing else. -/
def Obligations.LtIsUnsignedLess : Prop :=
  ∀ ra rb s, ∃ t, exec (.lt ra rb) s = .next t ∧ Completed t .ok ∧
    (t.flagLT = true ↔ (s.readN ra).toNat < (s.readN rb).toNat) ∧
    SameNarrow s t ∧ SameWide s t ∧ SameBuf s t ∧ t.flagC = s.flagC

/-- R232: the flag `LT` writes equals the flag `SUB` writes for the same sources. -/
def Obligations.LtAgreesWithSubBorrow : Prop :=
  ∀ rd ra rb s, ∃ t u, exec (.lt ra rb) s = .next t ∧ exec (.sub rd ra rb) s = .next u ∧ t.flagLT = u.flagC

/-! ## MUL, MOD, MODW, MODEXP -/

/-- R163: `MUL` writes the exact product, at most 2^512 - 2^257 + 1; its sources commute; nothing else changes. -/
def Obligations.MulIsExactProduct : Prop :=
  ∀ (wd ra rb : RegField) s, wd.toNat < 4 →
    exec (.mul wd ra rb) s = exec (.mul wd rb ra) s ∧
    ∃ t, exec (.mul wd ra rb) s = .next t ∧ Completed t .ok ∧
      (t.readW (wd.setWidth 2)).toNat = (s.readN ra).toNat * (s.readN rb).toNat ∧
      (t.readW (wd.setWidth 2)).toNat ≤ 2 ^ 512 - 2 ^ 257 + 1 ∧
      (∀ k, k ≠ wd.setWidth 2 → t.readW k = s.readW k) ∧ SameNarrow s t ∧ SameBuf s t ∧ SameFlags s t

/-- R176: with a non-zero modulus `MOD` and `MODW` write the residue, the unique value below the modulus that differs from
the dividend by a multiple of it, and change nothing else; `MOD` equals `MODW` on the value zero-extended to 512 bits. -/
def Obligations.ModAndModwAreResidues : Prop :=
  (∀ (rd ra rn : RegField) (s : State), s.readN rn ≠ 0 → ∃ t, exec (.mod rd ra rn) s = .next t ∧ Completed t .ok ∧
    (t.readN rd).toNat = (s.readN ra).toNat % (s.readN rn).toNat ∧ (t.readN rd).toNat < (s.readN rn).toNat ∧
    (∀ v : Nat, v < (s.readN rn).toNat → (((s.readN rn).toNat : Int) ∣ (s.readN ra).toNat - v ↔ v = (t.readN rd).toNat)) ∧
    SameNarrowBut rd s t ∧ SameWide s t ∧ SameBuf s t ∧ SameFlags s t) ∧
  (∀ (rd wa rn : RegField) (s : State), wa.toNat < 4 → s.readN rn ≠ 0 →
    ∃ t, exec (.modw rd wa rn) s = .next t ∧ Completed t .ok ∧
    (t.readN rd).toNat = (s.readW (wa.setWidth 2)).toNat % (s.readN rn).toNat ∧ (t.readN rd).toNat < (s.readN rn).toNat ∧
    (∀ v : Nat, v < (s.readN rn).toNat →
      (((s.readN rn).toNat : Int) ∣ (s.readW (wa.setWidth 2)).toNat - v ↔ v = (t.readN rd).toNat)) ∧
    SameNarrowBut rd s t ∧ SameWide s t ∧ SameBuf s t ∧ SameFlags s t) ∧
  (∀ (rd ra wa rn : RegField) (s : State), wa.toNat < 4 → s.readW (wa.setWidth 2) = (s.readN ra).setWidth 512 →
    exec (.mod rd ra rn) s = exec (.modw rd wa rn) s)

/-- R177, R242: with a zero modulus `MOD` and `MODW` report code 1, whatever the dividend, and write nothing else. -/
def Obligations.ZeroModulusWritesOnlyCode1 : Prop :=
  ∀ (rd rn : RegField) (s : State), s.readN rn = 0 →
    (∀ ra, ∃ t, exec (.mod rd ra rn) s = .next t ∧ WroteOnlyErr s t .zeroModulus ∧ (errBits t.err).toNat = 1) ∧
    (∀ wa, wa.toNat < 4 →
      ∃ t, exec (.modw rd wa rn) s = .next t ∧ WroteOnlyErr s t .zeroModulus ∧ (errBits t.err).toNat = 1)

/-- R193: when the base is below the modulus, both rows of `MODEXP` write the power, reduced, and change nothing else; it is
the value the controller of R197 returns, by its values and on the reference datapaths. -/
def Obligations.ModexpIsPower : Prop :=
  (∀ (rd ra rb rn : RegField) (bbits : BitVec 8) (s : State), (s.readN ra).toNat < (s.readN rn).toNat →
    ∃ t, exec (.modexp rd ra rb rn bbits) s = .next t ∧ Completed t .ok ∧
    (t.readN rd).toNat = (s.readN ra).toNat ^ ((s.readN rb).toNat % 2 ^ bbits.toNat) % (s.readN rn).toNat ∧
    (t.readN rd).toNat < (s.readN rn).toNat ∧
    SameNarrowBut rd s t ∧ SameWide s t ∧ SameBuf s t ∧ SameFlags s t) ∧
  (∀ (rd ra rb rn : RegField) (s : State), (s.readN ra).toNat < (s.readN rn).toNat →
    ∃ t, exec (.modexp256 rd ra rb rn) s = .next t ∧ Completed t .ok ∧
    (t.readN rd).toNat = (s.readN ra).toNat ^ ((s.readN rb).toNat % 2 ^ 256) % (s.readN rn).toNat ∧
    (t.readN rd).toNat < (s.readN rn).toNat ∧
    SameNarrowBut rd s t ∧ SameWide s t ∧ SameBuf s t ∧ SameFlags s t) ∧
  (∀ (a b n : Narrow) (k : Nat) (h : Hidden), a.toNat < n.toNat → k ≤ 256 →
    (mxRun a b n k h).toNat = a.toNat ^ (b.toNat % 2 ^ k) % n.toNat ∧ (expRun a b n k).val = mxRun a b n k h)

/-- R194: the checks of `MODEXP` in their order: a zero modulus reports code 1, never 2; then a base not below the modulus
reports code 2; the code is decided by the base and the modulus alone; a failing command writes nothing else. -/
def Obligations.ModexpChecksInOrder : Prop :=
  ∀ (i : Instr) (rd ra rb rn : RegField) (s : State),
    ((∃ bbits, i = .modexp rd ra rb rn bbits) ∨ i = .modexp256 rd ra rb rn) →
    (s.readN rn = 0 → ∃ t, exec i s = .next t ∧ WroteOnlyErr s t .zeroModulus ∧ (errBits t.err).toNat = 1) ∧
    (s.readN rn ≠ 0 → (s.readN rn).toNat ≤ (s.readN ra).toNat →
      ∃ t, exec i s = .next t ∧ WroteOnlyErr s t .baseRange ∧ (errBits t.err).toNat = 2) ∧
    (s.readN rn ≠ 0 → (s.readN ra).toNat < (s.readN rn).toNat → ∃ t, exec i s = .next t ∧ t.err = .ok)

/-- R113 (`MULMOD`), R163, R176: a product followed by its reduction is the modular product, and the product stays in the
wide register. -/
def Obligations.MulThenModwIsModularProduct : Prop :=
  ∀ (rd ra rb rn wt : RegField) (s : State), wt.toNat < 4 → s.readN rn ≠ 0 →
    ∃ t u, exec (.mul wt ra rb) s = .next t ∧ exec (.modw rd wt rn) t = .next u ∧ u.err = .ok ∧
      (u.readN rd).toNat = (s.readN ra).toNat * (s.readN rb).toNat % (s.readN rn).toNat ∧
      (u.readW (wt.setWidth 2)).toNat = (s.readN ra).toNat * (s.readN rb).toNat

/-! ## FROMBF, FROMBV, TOB -/

/-- R213: after a 32-byte parse, byte `k` of limb `j` of the destination is `BUF[addr + 31 - (8j + k)]`, for both parse
commands; nothing else changes. -/
def Obligations.ParseOf32BytesIsBigEndian : Prop :=
  ∀ (i : Instr) (rd : RegField) (addr : BitVec 8) (s : State), i = .frombf rd addr 32 ∨ i = .frombv rd addr 32 →
    addr.toNat + 32 ≤ 256 →
    ∃ t, exec i s = .next t ∧ Completed t .ok ∧
      (∀ j k, j < 4 → k < 8 →
        (limb (t.readN rd) j).extractLsb' (8 * k) 8 = s.byteAt (addr.toNat + 31 - (8 * j + k))) ∧
      SameNarrowBut rd s t ∧ SameWide s t ∧ SameBuf s t ∧ SameFlags s t

/-- R215: a parse of `len` bytes, 0 to 32, gives what a 32-byte parse of the run with zero bytes in front would give; the
value is below 256^len; nothing else changes. -/
def Obligations.FrombvZeroExtends : Prop :=
  ∀ (rd : RegField) (addr : BitVec 8) (len : BitVec 6) (s : State), len.toNat ≤ 32 → addr.toNat + len.toNat ≤ 256 →
    let bytes := (List.range len.toNat).map (fun k => s.byteAt (addr.toNat + k))
    ∃ t, exec (.frombv rd addr len) s = .next t ∧ Completed t .ok ∧
      (t.readN rd).toNat = beNat bytes ∧
      (t.readN rd).toNat = beNat (List.replicate (32 - len.toNat) 0 ++ bytes) ∧
      (t.readN rd).toNat < 256 ^ len.toNat ∧
      SameNarrowBut rd s t ∧ SameWide s t ∧ SameBuf s t ∧ SameFlags s t

/-- R221: the length is checked before the run: a wrong length reports code 3 whatever the address is, and writes nothing
else. -/
def Obligations.ParseLengthBeforeRange : Prop :=
  ∀ (rd : RegField) (addr : BitVec 8) (len : BitVec 6) (s : State),
    (len.toNat ≠ 32 →
      ∃ t, exec (.frombf rd addr len) s = .next t ∧ WroteOnlyErr s t .length ∧ (errBits t.err).toNat = 3) ∧
    (32 < len.toNat →
      ∃ t, exec (.frombv rd addr len) s = .next t ∧ WroteOnlyErr s t .length ∧ (errBits t.err).toNat = 3)

/-- R76, R219: a run of bytes that does not lie inside `BUF` reports code 5, for each command that addresses one, and writes
nothing else. -/
def Obligations.RunOutsideBufWritesOnlyCode5 : Prop :=
  ∀ (r : RegField) (addr : BitVec 8) (s : State),
    (256 < addr.toNat + 32 →
      (∃ t, exec (.frombf r addr 32) s = .next t ∧ WroteOnlyErr s t .bufRange ∧ (errBits t.err).toNat = 5) ∧
      (∃ t, exec (.tob r addr) s = .next t ∧ WroteOnlyErr s t .bufRange ∧ (errBits t.err).toNat = 5)) ∧
    (∀ len : BitVec 6, len.toNat ≤ 32 → 256 < addr.toNat + len.toNat →
      ∃ t, exec (.frombv r addr len) s = .next t ∧ WroteOnlyErr s t .bufRange ∧ (errBits t.err).toNat = 5)

/-- R217: after `TOB`, `BUF[addr + 31 - (8j + k)]` is byte `k` of limb `j` of the source, the first byte written is bits
255:248 and the last bits 7:0; every other byte and everything else is as before. -/
def Obligations.TobWritesBigEndian : Prop :=
  ∀ (rs : RegField) (addr : BitVec 8) (s : State), addr.toNat + 32 ≤ 256 →
    ∃ t, exec (.tob rs addr) s = .next t ∧ Completed t .ok ∧
      (∀ j k, j < 4 → k < 8 →
        t.byteAt (addr.toNat + 31 - (8 * j + k)) = (limb (s.readN rs) j).extractLsb' (8 * k) 8) ∧
      t.byteAt addr.toNat = (s.readN rs).extractLsb' 248 8 ∧ t.byteAt (addr.toNat + 31) = (s.readN rs).extractLsb' 0 8 ∧
      (∀ a, ¬(addr.toNat ≤ a ∧ a < addr.toNat + 32) → t.byteAt a = s.byteAt a) ∧
      SameNarrow s t ∧ SameWide s t ∧ SameFlags s t

/-- R218: writing a register and parsing it back gives the register, by either parse command; parsing 32 bytes and writing
the register puts the same 32 bytes at the second address. -/
def Obligations.TobAndParseRoundTrip : Prop :=
  (∀ (rs rd : RegField) (addr : BitVec 8) (s : State), addr.toNat ≤ 224 →
    ∃ t u v, exec (.tob rs addr) s = .next t ∧ exec (.frombf rd addr 32) t = .next u ∧
      exec (.frombv rd addr 32) t = .next v ∧ u.readN rd = s.readN rs ∧ v.readN rd = s.readN rs) ∧
  (∀ (rd : RegField) (addr addr2 : BitVec 8) (s : State), addr.toNat ≤ 224 → addr2.toNat ≤ 224 →
    ∃ t u, exec (.frombf rd addr 32) s = .next t ∧ exec (.tob rd addr2) t = .next u ∧
      ∀ k, k < 32 → u.byteAt (addr2.toNat + k) = s.byteAt (addr.toNat + k))

/-! ## Laws of every command -/

/-- R40: a completion with a non-zero code, of a command or of an illegal word, leaves every register, every byte of `BUF`
and both flags as they were; and so does every step before it from the acceptance on, which leaves the code alone too. -/
def Obligations.FailureWritesNothing : Prop :=
  (∀ s t, engineComplete s = .next t → t.err ≠ .ok → WroteOnlyErr s t t.err) ∧
  (∀ s t, s.phase = .exec → step s = .next t → t.phase = .exec →
    SameNarrow s t ∧ SameWide s t ∧ SameBuf s t ∧ SameFlags s t ∧ t.err = s.err ∧ t.curCmd = s.curCmd)

/-- R25: a command writes nothing its row of the table does not list. That the command word, the last reply and the
environment's list stay and the busy cycles pass is the model's (assumption logs 1, 3, 7, 14). -/
def Obligations.CommandWritesOnlyItsDestinations : Prop :=
  ∀ i s t, exec i s = .next t → Completed t t.err ∧ CompletionKeeps s t ∧
    (∀ r, narrowDest i ≠ some r → t.readN r = s.readN r) ∧
    (∀ k, wideDest i ≠ some k → t.readW k = s.readW k) ∧
    (∀ a, ¬writesByte i a → t.byteAt a = s.byteAt a) ∧
    (writesC i = false → t.flagC = s.flagC) ∧ (writesLT i = false → t.flagLT = s.flagLT)

/-- R38: started from states that agree on the locations a command reads, and differ as they may elsewhere, it completes with
the same code and, on success, writes equal values. -/
def Obligations.EqualSourcesEqualResults : Prop :=
  ∀ i s u, agreeOnSources i s u →
    ∃ t v, exec i s = .next t ∧ exec i u = .next v ∧ t.err = v.err ∧ (t.err = .ok → agreeOnDests i t v)

/-- R32: the hidden state other than `phase` and `cur_cmd` never affects a result; in particular the controller of `MODEXP`
writes each hidden variable before it reads it. -/
def Obligations.HiddenStateNeverMatters : Prop :=
  (∀ (i : Instr) (s : State) (h : Hidden), ∃ t u, exec i s = .next t ∧ exec i { s with hidden := h } = .next u ∧
    t.narrow = u.narrow ∧ t.wide = u.wide ∧ t.buf = u.buf ∧ t.flagC = u.flagC ∧ t.flagLT = u.flagLT ∧ t.err = u.err) ∧
  (∀ a b n k h h', mxRun a b n k h = mxRun a b n k h')

/-! ## Reset -/

/-- R41: the values after reset. -/
def Obligations.ResetValues : Prop :=
  let s := State.reset
  (∀ i, s.readN i = 0) ∧ (∀ k, s.readW k = 0) ∧ (∀ a, s.byteAt a = 0) ∧ s.flagC = false ∧ s.flagLT = false ∧
  s.busy = false ∧ (errBits s.err).toNat = 0 ∧ s.phase = .idle ∧ s.curCmd = 0 ∧
  s.hidden.p = 0 ∧ s.hidden.mxAcc = 0 ∧ s.hidden.mxSq = 0 ∧ s.hidden.mxT = 0 ∧ s.hidden.mxI = 0 ∧ s.hidden.rem = 0 ∧
  s.hidden.latchA = 0 ∧ s.hidden.latchB = 0 ∧ s.hidden.latchN = 0 ∧ s.hidden.latchBytes = 0

/-- R270, R272: a cycle with `rst` = 1 gives the whole block its reset values from any state, also while a command runs,
which is then abandoned; no transaction is accepted in it and the `busy` pin reads 0. That the environment's list goes on is
the model's (assumption log 13, DEDUCED), and that the last reply is forgotten is its choice (log 14, DESIGN CHOICE). -/
def Obligations.ResetCycleFromAnyState : Prop :=
  ∀ s rest, s.port = .reset :: rest → s.hReady .reset = false ∧ s.busyPin .reset = false ∧
    ∃ t, step s = .next t ∧ t.narrow = State.reset.narrow ∧ t.wide = State.reset.wide ∧ t.buf = State.reset.buf ∧
      t.flagC = false ∧ t.flagLT = false ∧ t.err = .ok ∧ t.phase = .idle ∧ t.busy = false ∧ t.curCmd = 0 ∧
      t.hidden = State.reset.hidden ∧ t.reply = none ∧ t.port = rest

/-! ## The host port -/

/-- R68: what an accepted read answers at every address, and that it changes no state; the read of `STATUS` also while a
command runs. -/
def Obligations.HostReadAnswers : Prop :=
  ∀ s addr rest, s.phase = .idle ∨ (addr = 0x308 ∧ 0 < s.left) → s.port = .read addr :: rest → ∃ data err t,
    step s = .next t ∧ t.reply = some (.read data err) ∧ t.port = rest ∧ SameBlock s t ∧
    (∀ (i : RegField) (j : Nat), j < 4 → addr.toNat = 32 * i.toNat + 8 * j → data = limb (s.readN i) j ∧ err = false) ∧
    (∀ (k : BitVec 2) (j : Nat), j < 8 → addr.toNat = 0x100 + 64 * k.toNat + 8 * j →
      data = limb (s.readW k) j ∧ err = false) ∧
    (∀ m, m < 32 → addr.toNat = 0x200 + 8 * m →
      (∀ b, b < 8 → data.extractLsb' (8 * b) 8 = s.byteAt (8 * m + b)) ∧ err = false) ∧
    (addr = 0x300 → data = 0 ∧ err = false) ∧
    (addr = 0x308 → data.toNat = s.busy.toNat + 16 * (errBits s.err).toNat ∧ err = false) ∧
    (addr = 0x310 → data.toNat = s.flagC.toNat + 2 * s.flagLT.toNat ∧ err = false) ∧
    (addr.toNat % 8 ≠ 0 ∨ 0x318 ≤ addr.toNat → data = 0 ∧ err = true)

/-- R69: what an accepted write does at every address. -/
def Obligations.HostWriteEffects : Prop :=
  ∀ s addr d rest, s.phase = .idle → s.port = .write addr d :: rest → ∃ t, step s = .next t ∧ t.port = rest ∧
    (∀ (i : RegField) (j : Nat), j < 4 → addr.toNat = 32 * i.toNat + 8 * j →
      t.reply = some (.write false) ∧ limb (t.readN i) j = d ∧
      (∀ l, l < 4 → l ≠ j → limb (t.readN i) l = limb (s.readN i) l) ∧
      SameNarrowBut i s t ∧ SameWide s t ∧ SameBuf s t ∧ SameFlags s t ∧ SameControl s t) ∧
    (∀ (k : BitVec 2) (j : Nat), j < 8 → addr.toNat = 0x100 + 64 * k.toNat + 8 * j →
      t.reply = some (.write false) ∧ limb (t.readW k) j = d ∧
      (∀ l, l < 8 → l ≠ j → limb (t.readW k) l = limb (s.readW k) l) ∧
      (∀ k', k' ≠ k → t.readW k' = s.readW k') ∧ SameNarrow s t ∧ SameBuf s t ∧ SameFlags s t ∧ SameControl s t) ∧
    (∀ m, m < 32 → addr.toNat = 0x200 + 8 * m →
      t.reply = some (.write false) ∧ (∀ b, b < 8 → t.byteAt (8 * m + b) = d.extractLsb' (8 * b) 8) ∧
      (∀ a, ¬(8 * m ≤ a ∧ a < 8 * m + 8) → t.byteAt a = s.byteAt a) ∧
      SameNarrow s t ∧ SameWide s t ∧ SameFlags s t ∧ SameControl s t) ∧
    (addr = 0x300 → t.reply = some (.write false) ∧ t.phase = .exec ∧ t.curCmd.toNat = d.toNat % 2 ^ 32 ∧ t.err = s.err ∧
      SameNarrow s t ∧ SameWide s t ∧ SameBuf s t ∧ SameFlags s t) ∧
    (addr.toNat % 8 ≠ 0 ∨ addr = 0x308 ∨ addr = 0x310 ∨ 0x318 ≤ addr.toNat →
      t.reply = some (.write true) ∧ SameBlock s t)

/-- R33: a write to `CMD` while idle starts the command in the low 32 bits of the data and changes nothing else; while a
command runs the write is held. -/
def Obligations.AcceptanceStartsCommand : Prop :=
  ∀ s d rest, s.port = .write 0x300 d :: rest →
    (s.phase = .idle → ∃ t, step s = .next t ∧ t.curCmd.toNat = d.toNat % 2 ^ 32 ∧ t.phase = .exec ∧ t.busy = true ∧
      t.err = s.err ∧ SameFlags s t ∧ SameNarrow s t ∧ SameWide s t ∧ SameBuf s t ∧ t.hidden = s.hidden ∧ t.port = rest) ∧
    (s.phase = .exec → s.hReady (.write 0x300 d) = false ∧ ∃ t, step s = .next t ∧ t.port = s.port ∧ t.reply = s.reply)

/-- R35: while a command runs only a read of `STATUS` is accepted; it shows `BUSY` and the previous code and changes nothing.
Every other transaction is held without effect, and what lifts the hold is the completion. -/
def Obligations.OnlyStatusReadsWhileBusy : Prop :=
  (∀ s e rest, s.phase = .exec → s.port = e :: rest →
    ((∃ addr, e = .read addr ∧ addr ≠ 0x308) ∨ ∃ addr d, e = .write addr d) → s.hReady e = false ∧
    step s = engineComplete s ∧ ∃ t, step s = .next t ∧ t.port = s.port ∧ t.reply = s.reply ∧ t.phase = .idle) ∧
  (∀ s rest, s.phase = .exec → s.port = .read 0x308 :: rest → 0 < s.left → ∃ data t,
    step s = .next t ∧ t.reply = some (.read data false) ∧ t.port = rest ∧ SameBlock s t ∧
    data.toNat = 1 + 16 * (errBits s.err).toNat)

/-- R67: a presented transaction leaves the queue in its cycle exactly when `h_ready` is 1 (while a command runs, in a cycle
before its completion: assumption log 4). -/
def Obligations.ReadyMeansAccepted : Prop :=
  ∀ s e rest t, s.port = e :: rest → ((∃ addr, e = .read addr) ∨ ∃ addr d, e = .write addr d) →
    (s.phase = .exec → 0 < s.left) → step s = .next t →
    (s.hReady e = true → t.port = rest ∧ t.clock = s.clock + 1 ∧ t.reply.isSome = true) ∧
    (s.hReady e = false → t.port = s.port ∧ t.reply = s.reply)

/-- R252: a bus error is answered exactly to a misaligned address, an unmapped address, or a write to a read-only register; it
changes no state, does not touch `STATUS.ERR` and starts no command. -/
def Obligations.BusErrorsChangeNothing : Prop :=
  ∀ s e rest t, s.phase = .idle → s.port = e :: rest → step s = .next t →
    (∀ addr, e = .read addr →
      ((∃ data, t.reply = some (.read data true)) ↔ addr.toNat % 8 ≠ 0 ∨ 0x318 ≤ addr.toNat) ∧
      t.port = rest ∧ SameBlock s t) ∧
    (∀ addr d, e = .write addr d →
      (t.reply = some (.write true) ↔ addr.toNat % 8 ≠ 0 ∨ 0x318 ≤ addr.toNat ∨ addr = 0x308 ∨ addr = 0x310) ∧
      (t.reply = some (.write true) → t.port = rest ∧ SameBlock s t))

/-- R28: outside reset, `STATUS.ERR` is written by completions only; codes 6 and 7 never occur. -/
def Obligations.ErrWrittenOnlyAtCompletion : Prop :=
  (∀ s t, step s = .next t → s.port.head? ≠ some .reset → s.phase = .idle ∨ t.phase = .exec → t.err = s.err) ∧
  (∀ c, (errBits c).toNat ≤ 5)

/-- R27: outside reset, `FLAGS.C` changes only at a successful completion of `ADD` or `SUB`, and `FLAGS.LT` only at one of
`LT`. -/
def Obligations.FlagsChangeOnlyByTheirCommands : Prop :=
  ∀ s t, step s = .next t → s.port.head? ≠ some .reset →
    (t.flagC ≠ s.flagC → s.phase = .exec ∧ t.phase = .idle ∧ t.err = .ok ∧
      ∃ rd ra rb, decode s.curCmd = .ok (.add rd ra rb) ∨ decode s.curCmd = .ok (.sub rd ra rb)) ∧
    (t.flagLT ≠ s.flagLT → s.phase = .exec ∧ t.phase = .idle ∧ t.err = .ok ∧ ∃ ra rb, decode s.curCmd = .ok (.lt ra rb))

/-- R274, R80: a read presented right after the write of a command is held, the command completes, and the read answers from
the state after the completion. -/
def Obligations.ReadAfterCommandSeesItsResult : Prop :=
  ∀ s d addr rest, s.phase = .idle → s.port = .write 0x300 d :: .read addr :: rest → addr ≠ 0x308 →
    ∃ u t v, step s = .next u ∧ engineComplete u = .next t ∧ step u = .next t ∧ step t = .next v ∧
      v.reply = some (.read (hostRead t addr).1 (hostRead t addr).2) ∧ v.port = rest

/-! ## Time and traces -/

/-- R276 (carried as assumption log 3 says): from the cycle that accepts a command to the cycle of its completion there pass
exactly `LAT` cycles, a function of the command word and the code it completes with, however often the host polls. -/
def Obligations.LatencyDependsOnWordAndCode : Prop :=
  (∀ s d rest, s.phase = .idle → s.port = .write 0x300 d :: rest → ∃ t, step s = .next t ∧
    t.clock + t.left = s.clock + Config.lat t.curCmd (errBits (pendingCode t))) ∧
  (∀ t u, t.phase = .exec → t.port.head? ≠ some .reset → step t = .next u →
    (u.phase = .exec → u.clock + u.left = t.clock + t.left ∧ pendingCode u = pendingCode t ∧ u.curCmd = t.curCmd) ∧
    (u.phase = .idle → u.clock = t.clock + t.left ∧ u.err = pendingCode t))

/-- R277: the sequence of datapath operations of a command is a function of the command and of the code it completes with. -/
def Obligations.TraceDependsOnWordAndCode : Prop :=
  ∀ i s u t v, exec i s = .next t → exec i u = .next v → t.err = v.err → (execTraced i s).ops = (execTraced i u).ops

/-- R199: once the checks have passed, the trace of `MODEXP` is one 256-bit reduction and then, `bbits` times, product,
512-bit reduction, product, 512-bit reduction, select, each a fixed sequence, whatever base, exponent and modulus are. -/
def Obligations.ModexpTraceDependsOnBbits : Prop :=
  (∀ (w : Nat) (a : BitVec w) (n : Narrow), (reduce a n).ops = reduceOps w) ∧
  (∀ a b : Narrow, (schoolbook a b).ops = productOps) ∧
  (∀ (a b n : Narrow) (k : Nat), (expRun a b n k).ops = reduceOps 256 ++ expLoopOps k) ∧
  (∀ (rd ra rb rn : RegField) (bbits : BitVec 8) (s : State), (s.readN ra).toNat < (s.readN rn).toNat →
    (execTraced (.modexp rd ra rb rn bbits) s).ops =
      [.zeroTest, .sbb 0, .sbb 1, .sbb 2, .sbb 3] ++ reduceOps 256 ++ expLoopOps bbits.toNat) ∧
  (∀ (rd ra rb rn : RegField) (s : State), (s.readN ra).toNat < (s.readN rn).toNat →
    (execTraced (.modexp256 rd ra rb rn) s).ops =
      [.zeroTest, .sbb 0, .sbb 1, .sbb 2, .sbb 3] ++ reduceOps 256 ++ expLoopOps 256)

/-- R164, R178, R202: every command on the reference datapaths ends in exactly the state exec gives it. -/
def Obligations.ReferenceDatapathsRefineExec : Prop :=
  ∀ i s, (execTraced i s).val = exec i s

/-! ## Datapaths and notation -/

/-- R162, R163: the schoolbook loop computes the exact product. -/
def Obligations.SchoolbookIsExact : Prop :=
  ∀ a b : Narrow, (schoolbook a b).val.toNat = a.toNat * b.toNat

/-- R174, R175: the division loop computes the residue of a dividend of any width by a non-zero modulus. -/
def Obligations.ReductionIsExact : Prop :=
  ∀ (w : Nat) (a : BitVec w) (n : Narrow), n ≠ 0 → (reduce a n).val.toNat = a.toNat % n.toNat

/-- R9: the mask form selects. -/
def Obligations.MaskFormSelects : Prop :=
  ∀ (w : Nat) (c : Bool) (x y : BitVec w), ctSelect c x y = if c then x else y

/-- R141: the adder stage is exact. -/
def Obligations.AdderStageIsExact : Prop :=
  ∀ (x y : Limb) (cin : Bool),
    x.toNat + y.toNat + cin.toNat = 2 ^ 64 * (adc64 x y cin).1.toNat + (adc64 x y cin).2.toNat ∧
    (adc64 x y cin).2.toNat = (x.toNat + y.toNat + cin.toNat) % 2 ^ 64 ∧
    (adc64 x y cin).1.toNat = (x.toNat + y.toNat + cin.toNat) / 2 ^ 64

/-- R142: the subtractor stage is exact, and borrows exactly when the difference is negative. -/
def Obligations.SubtractorStageIsExact : Prop :=
  ∀ (x y : Limb) (bin : Bool),
    (x.toNat : Int) - y.toNat - bin.toNat = (sbb64 x y bin).2.toNat - 2 ^ 64 * (sbb64 x y bin).1.toNat ∧
    ((sbb64 x y bin).1 = true ↔ (x.toNat : Int) - y.toNat - bin.toNat < 0)

/-- R161: the sum of the multiply-accumulate step is at most 2^128 - 1, so it never overflows 128 bits, and it is split
exactly. -/
def Obligations.MultiplyAccumulateIsExact : Prop :=
  ∀ x y acc cin : Limb,
    x.toNat * y.toNat + acc.toNat + cin.toNat ≤ 2 ^ 128 - 1 ∧
    x.toNat * y.toNat + acc.toNat + cin.toNat = 2 ^ 64 * (mac64 x y acc cin).1.toNat + (mac64 x y acc cin).2.toNat

/-- R7: a limb is its 64 bits of the value, and the limbs make the value, for narrow and wide. -/
def Obligations.LimbsMakeTheValue : Prop :=
  (∀ (v : Narrow) (j : Nat), j < 4 → (limb v j).toNat = v.toNat / 2 ^ (64 * j) % 2 ^ 64) ∧
  (∀ (v : Wide) (j : Nat), j < 8 → (limb v j).toNat = v.toNat / 2 ^ (64 * j) % 2 ^ 64) ∧
  (∀ v : Narrow, v.toNat = ((List.range 4).map (fun j => 2 ^ (64 * j) * (limb v j).toNat)).sum) ∧
  (∀ v : Wide, v.toNat = ((List.range 8).map (fun j => 2 ^ (64 * j) * (limb v j).toNat)).sum) ∧
  (∀ l0 l1 l2 l3 : Limb, (natOfLimbs l0 l1 l2 l3).toNat =
    l0.toNat + 2 ^ 64 * l1.toNat + 2 ^ 128 * l2.toNat + 2 ^ 192 * l3.toNat)

/-- R10: `be_nat` is the big-endian sum and 0 of the empty list; `be_bytes32(v)` is the unique list of 32 bytes whose
`be_nat` is `v`, with byte `k` at bits `8*(31-k)+7 : 8*(31-k)`. -/
def Obligations.ByteStringsAreBigEndian : Prop :=
  (∀ bs : List Byte,
    beNat bs = ((List.range bs.length).map (fun k => 256 ^ (bs.length - 1 - k) * (bs.getD k 0).toNat)).sum) ∧
  beNat [] = 0 ∧
  (∀ v : Narrow, (beBytes32 v).length = 32 ∧
    (∀ k, k < 32 → (beBytes32 v).getD k 0 = v.extractLsb' (8 * (31 - k)) 8) ∧
    beNat (beBytes32 v) = v.toNat ∧ ∀ bs : List Byte, bs.length = 32 → beNat bs = v.toNat → bs = beBytes32 v)
end

