-- ==== Sys2Proof/Laws/State.lean ====
section
/-! SUPPORT. One lemma per field per update of the state, so that no later proof unfolds a record update. -/

namespace Sys2Proof.Machine

/-! ## Fields after `writeN` -/

@[simp] theorem State.writeN_narrow (s : State) (i : RegField) (v : Narrow) : (s.writeN i v).narrow = s.narrow.set i v := rfl
@[simp] theorem State.writeN_wide (s : State) (i : RegField) (v : Narrow) : (s.writeN i v).wide = s.wide := rfl
@[simp] theorem State.writeN_buf (s : State) (i : RegField) (v : Narrow) : (s.writeN i v).buf = s.buf := rfl
@[simp] theorem State.writeN_flagC (s : State) (i : RegField) (v : Narrow) : (s.writeN i v).flagC = s.flagC := rfl
@[simp] theorem State.writeN_flagLT (s : State) (i : RegField) (v : Narrow) : (s.writeN i v).flagLT = s.flagLT := rfl
@[simp] theorem State.writeN_err (s : State) (i : RegField) (v : Narrow) : (s.writeN i v).err = s.err := rfl
@[simp] theorem State.writeN_phase (s : State) (i : RegField) (v : Narrow) : (s.writeN i v).phase = s.phase := rfl
@[simp] theorem State.writeN_curCmd (s : State) (i : RegField) (v : Narrow) : (s.writeN i v).curCmd = s.curCmd := rfl
@[simp] theorem State.writeN_hidden (s : State) (i : RegField) (v : Narrow) : (s.writeN i v).hidden = s.hidden := rfl
@[simp] theorem State.writeN_reply (s : State) (i : RegField) (v : Narrow) : (s.writeN i v).reply = s.reply := rfl
@[simp] theorem State.writeN_port (s : State) (i : RegField) (v : Narrow) : (s.writeN i v).port = s.port := rfl
@[simp] theorem State.writeN_left (s : State) (i : RegField) (v : Narrow) : (s.writeN i v).left = s.left := rfl
@[simp] theorem State.writeN_clock (s : State) (i : RegField) (v : Narrow) : (s.writeN i v).clock = s.clock := rfl
@[simp] theorem State.writeN_freeCount (s : State) (i : RegField) (v : Narrow) : (s.writeN i v).freeCount = s.freeCount := rfl
@[simp] theorem State.writeN_readW (s : State) (i : RegField) (v : Narrow) (j : BitVec 2) : (s.writeN i v).readW j = s.readW j := rfl
@[simp] theorem State.writeN_byteAt (s : State) (i : RegField) (v : Narrow) (x : Nat) : (s.writeN i v).byteAt x = s.byteAt x := rfl

/-! ## Fields after `writeW` -/

@[simp] theorem State.writeW_narrow (s : State) (k : BitVec 2) (v : Wide) : (s.writeW k v).narrow = s.narrow := rfl
@[simp] theorem State.writeW_wide (s : State) (k : BitVec 2) (v : Wide) : (s.writeW k v).wide = s.wide.set k v := rfl
@[simp] theorem State.writeW_buf (s : State) (k : BitVec 2) (v : Wide) : (s.writeW k v).buf = s.buf := rfl
@[simp] theorem State.writeW_flagC (s : State) (k : BitVec 2) (v : Wide) : (s.writeW k v).flagC = s.flagC := rfl
@[simp] theorem State.writeW_flagLT (s : State) (k : BitVec 2) (v : Wide) : (s.writeW k v).flagLT = s.flagLT := rfl
@[simp] theorem State.writeW_err (s : State) (k : BitVec 2) (v : Wide) : (s.writeW k v).err = s.err := rfl
@[simp] theorem State.writeW_phase (s : State) (k : BitVec 2) (v : Wide) : (s.writeW k v).phase = s.phase := rfl
@[simp] theorem State.writeW_curCmd (s : State) (k : BitVec 2) (v : Wide) : (s.writeW k v).curCmd = s.curCmd := rfl
@[simp] theorem State.writeW_hidden (s : State) (k : BitVec 2) (v : Wide) : (s.writeW k v).hidden = s.hidden := rfl
@[simp] theorem State.writeW_reply (s : State) (k : BitVec 2) (v : Wide) : (s.writeW k v).reply = s.reply := rfl
@[simp] theorem State.writeW_port (s : State) (k : BitVec 2) (v : Wide) : (s.writeW k v).port = s.port := rfl
@[simp] theorem State.writeW_left (s : State) (k : BitVec 2) (v : Wide) : (s.writeW k v).left = s.left := rfl
@[simp] theorem State.writeW_clock (s : State) (k : BitVec 2) (v : Wide) : (s.writeW k v).clock = s.clock := rfl
@[simp] theorem State.writeW_freeCount (s : State) (k : BitVec 2) (v : Wide) : (s.writeW k v).freeCount = s.freeCount := rfl
@[simp] theorem State.writeW_readN (s : State) (k : BitVec 2) (v : Wide) (j : RegField) : (s.writeW k v).readN j = s.readN j := rfl
@[simp] theorem State.writeW_byteAt (s : State) (k : BitVec 2) (v : Wide) (x : Nat) : (s.writeW k v).byteAt x = s.byteAt x := rfl

/-! ## Fields after `setC` -/

@[simp] theorem State.setC_narrow (s : State) (b : Bool) : (s.setC b).narrow = s.narrow := rfl
@[simp] theorem State.setC_wide (s : State) (b : Bool) : (s.setC b).wide = s.wide := rfl
@[simp] theorem State.setC_buf (s : State) (b : Bool) : (s.setC b).buf = s.buf := rfl
@[simp] theorem State.setC_flagC (s : State) (b : Bool) : (s.setC b).flagC = b := rfl
@[simp] theorem State.setC_flagLT (s : State) (b : Bool) : (s.setC b).flagLT = s.flagLT := rfl
@[simp] theorem State.setC_err (s : State) (b : Bool) : (s.setC b).err = s.err := rfl
@[simp] theorem State.setC_phase (s : State) (b : Bool) : (s.setC b).phase = s.phase := rfl
@[simp] theorem State.setC_curCmd (s : State) (b : Bool) : (s.setC b).curCmd = s.curCmd := rfl
@[simp] theorem State.setC_hidden (s : State) (b : Bool) : (s.setC b).hidden = s.hidden := rfl
@[simp] theorem State.setC_reply (s : State) (b : Bool) : (s.setC b).reply = s.reply := rfl
@[simp] theorem State.setC_port (s : State) (b : Bool) : (s.setC b).port = s.port := rfl
@[simp] theorem State.setC_left (s : State) (b : Bool) : (s.setC b).left = s.left := rfl
@[simp] theorem State.setC_clock (s : State) (b : Bool) : (s.setC b).clock = s.clock := rfl
@[simp] theorem State.setC_freeCount (s : State) (b : Bool) : (s.setC b).freeCount = s.freeCount := rfl
@[simp] theorem State.setC_readN (s : State) (b : Bool) (j : RegField) : (s.setC b).readN j = s.readN j := rfl
@[simp] theorem State.setC_readW (s : State) (b : Bool) (j : BitVec 2) : (s.setC b).readW j = s.readW j := rfl
@[simp] theorem State.setC_byteAt (s : State) (b : Bool) (x : Nat) : (s.setC b).byteAt x = s.byteAt x := rfl

/-! ## Fields after `setLT` -/

@[simp] theorem State.setLT_narrow (s : State) (b : Bool) : (s.setLT b).narrow = s.narrow := rfl
@[simp] theorem State.setLT_wide (s : State) (b : Bool) : (s.setLT b).wide = s.wide := rfl
@[simp] theorem State.setLT_buf (s : State) (b : Bool) : (s.setLT b).buf = s.buf := rfl
@[simp] theorem State.setLT_flagC (s : State) (b : Bool) : (s.setLT b).flagC = s.flagC := rfl
@[simp] theorem State.setLT_flagLT (s : State) (b : Bool) : (s.setLT b).flagLT = b := rfl
@[simp] theorem State.setLT_err (s : State) (b : Bool) : (s.setLT b).err = s.err := rfl
@[simp] theorem State.setLT_phase (s : State) (b : Bool) : (s.setLT b).phase = s.phase := rfl
@[simp] theorem State.setLT_curCmd (s : State) (b : Bool) : (s.setLT b).curCmd = s.curCmd := rfl
@[simp] theorem State.setLT_hidden (s : State) (b : Bool) : (s.setLT b).hidden = s.hidden := rfl
@[simp] theorem State.setLT_reply (s : State) (b : Bool) : (s.setLT b).reply = s.reply := rfl
@[simp] theorem State.setLT_port (s : State) (b : Bool) : (s.setLT b).port = s.port := rfl
@[simp] theorem State.setLT_left (s : State) (b : Bool) : (s.setLT b).left = s.left := rfl
@[simp] theorem State.setLT_clock (s : State) (b : Bool) : (s.setLT b).clock = s.clock := rfl
@[simp] theorem State.setLT_freeCount (s : State) (b : Bool) : (s.setLT b).freeCount = s.freeCount := rfl
@[simp] theorem State.setLT_readN (s : State) (b : Bool) (j : RegField) : (s.setLT b).readN j = s.readN j := rfl
@[simp] theorem State.setLT_readW (s : State) (b : Bool) (j : BitVec 2) : (s.setLT b).readW j = s.readW j := rfl
@[simp] theorem State.setLT_byteAt (s : State) (b : Bool) (x : Nat) : (s.setLT b).byteAt x = s.byteAt x := rfl

/-! ## Fields after `finish` -/

@[simp] theorem State.finish_narrow (s : State) (c : ErrCode) : (s.finish c).narrow = s.narrow := rfl
@[simp] theorem State.finish_wide (s : State) (c : ErrCode) : (s.finish c).wide = s.wide := rfl
@[simp] theorem State.finish_buf (s : State) (c : ErrCode) : (s.finish c).buf = s.buf := rfl
@[simp] theorem State.finish_flagC (s : State) (c : ErrCode) : (s.finish c).flagC = s.flagC := rfl
@[simp] theorem State.finish_flagLT (s : State) (c : ErrCode) : (s.finish c).flagLT = s.flagLT := rfl
@[simp] theorem State.finish_err (s : State) (c : ErrCode) : (s.finish c).err = c := rfl
@[simp] theorem State.finish_phase (s : State) (c : ErrCode) : (s.finish c).phase = .idle := rfl
@[simp] theorem State.finish_curCmd (s : State) (c : ErrCode) : (s.finish c).curCmd = s.curCmd := rfl
@[simp] theorem State.finish_hidden (s : State) (c : ErrCode) : (s.finish c).hidden = freeHidden s.freeCount := rfl
@[simp] theorem State.finish_reply (s : State) (c : ErrCode) : (s.finish c).reply = s.reply := rfl
@[simp] theorem State.finish_port (s : State) (c : ErrCode) : (s.finish c).port = s.port := rfl
@[simp] theorem State.finish_left (s : State) (c : ErrCode) : (s.finish c).left = 0 := rfl
@[simp] theorem State.finish_clock (s : State) (c : ErrCode) : (s.finish c).clock = s.clock + s.left := rfl
@[simp] theorem State.finish_freeCount (s : State) (c : ErrCode) : (s.finish c).freeCount = s.freeCount + 1 := rfl
@[simp] theorem State.finish_readN (s : State) (c : ErrCode) (j : RegField) : (s.finish c).readN j = s.readN j := rfl
@[simp] theorem State.finish_readW (s : State) (c : ErrCode) (j : BitVec 2) : (s.finish c).readW j = s.readW j := rfl
@[simp] theorem State.finish_byteAt (s : State) (c : ErrCode) (x : Nat) : (s.finish c).byteAt x = s.byteAt x := rfl

/-! ## Fields after `quietCycle` -/

@[simp] theorem quietCycle_narrow (s : State) : (quietCycle s).narrow = s.narrow := rfl
@[simp] theorem quietCycle_wide (s : State) : (quietCycle s).wide = s.wide := rfl
@[simp] theorem quietCycle_buf (s : State) : (quietCycle s).buf = s.buf := rfl
@[simp] theorem quietCycle_flagC (s : State) : (quietCycle s).flagC = s.flagC := rfl
@[simp] theorem quietCycle_flagLT (s : State) : (quietCycle s).flagLT = s.flagLT := rfl
@[simp] theorem quietCycle_err (s : State) : (quietCycle s).err = s.err := rfl
@[simp] theorem quietCycle_phase (s : State) : (quietCycle s).phase = s.phase := rfl
@[simp] theorem quietCycle_curCmd (s : State) : (quietCycle s).curCmd = s.curCmd := rfl
@[simp] theorem quietCycle_hidden (s : State) : (quietCycle s).hidden = s.hidden := rfl
@[simp] theorem quietCycle_reply (s : State) : (quietCycle s).reply = s.reply := rfl
@[simp] theorem quietCycle_port (s : State) : (quietCycle s).port = s.port := rfl
@[simp] theorem quietCycle_left (s : State) : (quietCycle s).left = s.left := rfl
@[simp] theorem quietCycle_clock (s : State) : (quietCycle s).clock = s.clock + 1 := rfl
@[simp] theorem quietCycle_freeCount (s : State) : (quietCycle s).freeCount = s.freeCount := rfl

/-! ## Fields after `resetCycle` -/

@[simp] theorem resetCycle_narrow (s : State) : (resetCycle s).narrow = State.reset.narrow := rfl
@[simp] theorem resetCycle_wide (s : State) : (resetCycle s).wide = State.reset.wide := rfl
@[simp] theorem resetCycle_buf (s : State) : (resetCycle s).buf = State.reset.buf := rfl
@[simp] theorem resetCycle_flagC (s : State) : (resetCycle s).flagC = State.reset.flagC := rfl
@[simp] theorem resetCycle_flagLT (s : State) : (resetCycle s).flagLT = State.reset.flagLT := rfl
@[simp] theorem resetCycle_err (s : State) : (resetCycle s).err = State.reset.err := rfl
@[simp] theorem resetCycle_phase (s : State) : (resetCycle s).phase = State.reset.phase := rfl
@[simp] theorem resetCycle_curCmd (s : State) : (resetCycle s).curCmd = State.reset.curCmd := rfl
@[simp] theorem resetCycle_hidden (s : State) : (resetCycle s).hidden = State.reset.hidden := rfl
@[simp] theorem resetCycle_reply (s : State) : (resetCycle s).reply = State.reset.reply := rfl
@[simp] theorem resetCycle_port (s : State) : (resetCycle s).port = s.port := rfl
@[simp] theorem resetCycle_left (s : State) : (resetCycle s).left = State.reset.left := rfl
@[simp] theorem resetCycle_clock (s : State) : (resetCycle s).clock = s.clock + 1 := rfl
@[simp] theorem resetCycle_freeCount (s : State) : (resetCycle s).freeCount = s.freeCount := rfl

/-! ## Fields after `acceptRead` -/

@[simp] theorem acceptRead_narrow (a : BusAddr) (s : State) : (acceptRead a s).narrow = s.narrow := rfl
@[simp] theorem acceptRead_wide (a : BusAddr) (s : State) : (acceptRead a s).wide = s.wide := rfl
@[simp] theorem acceptRead_buf (a : BusAddr) (s : State) : (acceptRead a s).buf = s.buf := rfl
@[simp] theorem acceptRead_flagC (a : BusAddr) (s : State) : (acceptRead a s).flagC = s.flagC := rfl
@[simp] theorem acceptRead_flagLT (a : BusAddr) (s : State) : (acceptRead a s).flagLT = s.flagLT := rfl
@[simp] theorem acceptRead_err (a : BusAddr) (s : State) : (acceptRead a s).err = s.err := rfl
@[simp] theorem acceptRead_phase (a : BusAddr) (s : State) : (acceptRead a s).phase = s.phase := rfl
@[simp] theorem acceptRead_curCmd (a : BusAddr) (s : State) : (acceptRead a s).curCmd = s.curCmd := rfl
@[simp] theorem acceptRead_hidden (a : BusAddr) (s : State) : (acceptRead a s).hidden = s.hidden := rfl
@[simp] theorem acceptRead_reply (a : BusAddr) (s : State) : (acceptRead a s).reply = some (.read (hostRead s a).1 (hostRead s a).2) := rfl
@[simp] theorem acceptRead_port (a : BusAddr) (s : State) : (acceptRead a s).port = s.port := rfl
@[simp] theorem acceptRead_left (a : BusAddr) (s : State) : (acceptRead a s).left = s.left := rfl
@[simp] theorem acceptRead_clock (a : BusAddr) (s : State) : (acceptRead a s).clock = s.clock + 1 := rfl
@[simp] theorem acceptRead_freeCount (a : BusAddr) (s : State) : (acceptRead a s).freeCount = s.freeCount := rfl

/-! ## Fields after `acceptCommand` and `withFetchWord` -/

@[simp] theorem acceptCommand_narrow (w : CmdWord) (s : State) : (acceptCommand w s).narrow = s.narrow := rfl
@[simp] theorem acceptCommand_wide (w : CmdWord) (s : State) : (acceptCommand w s).wide = s.wide := rfl
@[simp] theorem acceptCommand_buf (w : CmdWord) (s : State) : (acceptCommand w s).buf = s.buf := rfl
@[simp] theorem acceptCommand_flagC (w : CmdWord) (s : State) : (acceptCommand w s).flagC = s.flagC := rfl
@[simp] theorem acceptCommand_flagLT (w : CmdWord) (s : State) : (acceptCommand w s).flagLT = s.flagLT := rfl
@[simp] theorem acceptCommand_err (w : CmdWord) (s : State) : (acceptCommand w s).err = s.err := rfl
@[simp] theorem acceptCommand_phase (w : CmdWord) (s : State) : (acceptCommand w s).phase = .exec := rfl
@[simp] theorem acceptCommand_curCmd (w : CmdWord) (s : State) : (acceptCommand w s).curCmd = w := rfl
@[simp] theorem acceptCommand_hidden (w : CmdWord) (s : State) : (acceptCommand w s).hidden = s.hidden := rfl
@[simp] theorem acceptCommand_reply (w : CmdWord) (s : State) : (acceptCommand w s).reply = s.reply := rfl
@[simp] theorem acceptCommand_port (w : CmdWord) (s : State) : (acceptCommand w s).port = s.port := rfl
@[simp] theorem acceptCommand_clock (w : CmdWord) (s : State) : (acceptCommand w s).clock = s.clock := rfl
@[simp] theorem acceptCommand_freeCount (w : CmdWord) (s : State) : (acceptCommand w s).freeCount = s.freeCount := rfl

@[simp] theorem State.withFetchWord_narrow (s : State) (n w : Nat) : (s.withFetchWord n w).narrow = s.narrow := rfl
@[simp] theorem State.withFetchWord_wide (s : State) (n w : Nat) : (s.withFetchWord n w).wide = s.wide := rfl
@[simp] theorem State.withFetchWord_buf (s : State) (n w : Nat) : (s.withFetchWord n w).buf = s.buf := rfl
@[simp] theorem State.withFetchWord_flagC (s : State) (n w : Nat) : (s.withFetchWord n w).flagC = s.flagC := rfl
@[simp] theorem State.withFetchWord_flagLT (s : State) (n w : Nat) : (s.withFetchWord n w).flagLT = s.flagLT := rfl
@[simp] theorem State.withFetchWord_err (s : State) (n w : Nat) : (s.withFetchWord n w).err = s.err := rfl
@[simp] theorem State.withFetchWord_phase (s : State) (n w : Nat) : (s.withFetchWord n w).phase = .exec := rfl
@[simp] theorem State.withFetchWord_curCmd (s : State) (n w : Nat) : (s.withFetchWord n w).curCmd = BitVec.ofNat 32 (w % 2 ^ n) := rfl
@[simp] theorem State.withFetchWord_hidden (s : State) (n w : Nat) : (s.withFetchWord n w).hidden = s.hidden := rfl
@[simp] theorem State.withFetchWord_reply (s : State) (n w : Nat) : (s.withFetchWord n w).reply = s.reply := rfl
@[simp] theorem State.withFetchWord_port (s : State) (n w : Nat) : (s.withFetchWord n w).port = .await :: s.port := rfl
@[simp] theorem State.withFetchWord_left (s : State) (n w : Nat) : (s.withFetchWord n w).left = s.left := rfl
@[simp] theorem State.withFetchWord_clock (s : State) (n w : Nat) : (s.withFetchWord n w).clock = s.clock := rfl
@[simp] theorem State.withFetchWord_freeCount (s : State) (n w : Nat) : (s.withFetchWord n w).freeCount = s.freeCount := rfl

end Sys2Proof.Machine
end

