-- ==== Sys2Proof/Laws/Memory.lean ====
section
/-! SUPPORT. `BUF` as a list in canonical form: reading after writing, and every write keeps the form. -/

namespace Sys2Proof.Machine

theorem Memory.byteAt_filter (m : Memory) (a x : Nat) :
    Memory.byteAt (m.filter (fun c => c.1 != a)) x = if x = a then 0 else Memory.byteAt m x := by
  induction m with
  | nil => simp [Memory.byteAt]
  | cons c m ih =>
    obtain ⟨b, w⟩ := c
    by_cases hb : b = a
    · subst hb
      by_cases hx : x = b
      · subst hx; simpa using ih
      · simp only [List.filter_cons, bne_self_eq_false, Bool.false_eq_true, if_false, ih, if_neg hx]
        simp [Memory.byteAt, Ne.symm hx]
    · by_cases hx : b = x
      · subst hx; simp [Memory.byteAt, hb]
      · simp [Memory.byteAt, hb, hx, ih]

theorem Memory.byteAt_insertCell (m : Memory) (a x : Nat) (v : Byte) (h : ∀ c ∈ m, c.1 ≠ a) :
    Memory.byteAt (Memory.insertCell a v m) x = if x = a then v else Memory.byteAt m x := by
  induction m with
  | nil => simp [Memory.insertCell, Memory.byteAt, eq_comm]
  | cons c m ih =>
    obtain ⟨b, w⟩ := c
    have hb : b ≠ a := h (b, w) List.mem_cons_self
    have ih := ih fun c hc => h c (List.mem_cons_of_mem _ hc)
    unfold Memory.insertCell
    split
    · simp [Memory.byteAt, eq_comm]
    · by_cases hx : b = x
      · subst hx; simp [Memory.byteAt, hb]
      · simp [Memory.byteAt, hx, ih]

/-- Reading after a write of one byte: the byte written at its address, every other byte as before. -/
theorem Memory.byteAt_put (m : Memory) (a x : Nat) (v : Byte) :
    (m.put a v).byteAt x = if x = a then v else m.byteAt x := by
  unfold Memory.put
  by_cases hv : v = 0
  · subst hv; simpa using Memory.byteAt_filter m a x
  · simp only [if_neg hv]
    rw [Memory.byteAt_insertCell _ _ _ _ (by simp), Memory.byteAt_filter]
    split <;> simp_all

/-- Reading outside a run that was written: as before. -/
theorem Memory.byteAt_putRun_outside (bs : List Byte) (m : Memory) (a x : Nat) (h : ¬(a ≤ x ∧ x < a + bs.length)) :
    (m.putRun a bs).byteAt x = m.byteAt x := by
  induction bs generalizing m a with
  | nil => rfl
  | cons b bs ih =>
    simp only [List.length_cons] at h
    rw [Memory.putRun, ih _ _ (by omega), Memory.byteAt_put, if_neg (by omega)]

/-- Reading inside a run that was written: the byte of the list. -/
theorem Memory.byteAt_putRun_inside (bs : List Byte) (m : Memory) (a k : Nat) (h : k < bs.length) :
    (m.putRun a bs).byteAt (a + k) = bs.getD k 0 := by
  induction bs generalizing m a k with
  | nil => simp at h
  | cons b bs ih =>
    cases k with
    | zero => rw [Memory.putRun, Memory.byteAt_putRun_outside _ _ _ _ (by omega), Memory.byteAt_put]; simp
    | succ k =>
      rw [Memory.putRun, show a + (k + 1) = a + 1 + k by omega, ih _ _ _ (by simpa using h)]; simp

/-- The run read from `a` is the bytes at `a`, `a + 1`, and so on (R8). -/
theorem Memory.run_eq_map (m : Memory) (a n : Nat) : m.run a n = (List.range n).map (fun k => m.byteAt (a + k)) := by
  induction n generalizing a with
  | zero => rfl
  | succ n ih =>
    rw [Memory.run, ih, List.range_succ_eq_map]
    simp [Function.comp_def, Nat.add_comm, Nat.add_left_comm]

@[simp] theorem Memory.length_run (m : Memory) (a n : Nat) : (m.run a n).length = n := by
  simp [Memory.run_eq_map]

theorem Memory.mem_insertCell {m : Memory} {a : Nat} {v : Byte} {c : Host.Cell} :
    c ∈ Memory.insertCell a v m ↔ c = (a, v) ∨ c ∈ m := by
  induction m with
  | nil => simp [Memory.insertCell]
  | cons d m ih =>
    obtain ⟨b, w⟩ := d
    unfold Memory.insertCell
    split
    · simp
    · simp only [List.mem_cons, ih]; tauto

theorem Memory.pairwise_insertCell (m : Memory) (a : Nat) (v : Byte) (hm : m.Pairwise (fun x y => x.1 < y.1))
    (ha : ∀ c ∈ m, c.1 ≠ a) : (Memory.insertCell a v m).Pairwise (fun x y => x.1 < y.1) := by
  induction m with
  | nil => simp [Memory.insertCell]
  | cons d m ih =>
    obtain ⟨b, w⟩ := d
    obtain ⟨hd, hm'⟩ := List.pairwise_cons.mp hm
    have hb : b ≠ a := ha (b, w) List.mem_cons_self
    unfold Memory.insertCell
    split
    · rename_i hlt
      refine List.pairwise_cons.mpr ⟨fun c hc => ?_, hm⟩
      rcases List.mem_cons.mp hc with rfl | hc
      · exact hlt
      · exact lt_trans hlt (hd c hc)
    · rename_i hge
      refine List.pairwise_cons.mpr ⟨fun c hc => ?_, ih hm' fun c hc => ha c (List.mem_cons_of_mem _ hc)⟩
      rcases Memory.mem_insertCell.mp hc with rfl | hc
      · show b < a; omega
      · exact hd c hc

/-- The empty memory is in canonical form. -/
theorem Memory.wf_nil : Memory.wf [] := by simp [Memory.wf]

/-- A write of one byte of `BUF` keeps the canonical form. -/
theorem Memory.wf_put {m : Memory} (hm : m.wf) {a : Nat} (ha : a < 256) (v : Byte) : (m.put a v).wf := by
  obtain ⟨hp, hc⟩ := hm
  have hp' := hp.sublist (List.filter_sublist (p := fun c => c.1 != a))
  unfold Memory.put
  by_cases hv : v = 0
  · simp only [if_pos hv]
    exact ⟨hp', fun c h => hc c (List.mem_of_mem_filter h)⟩
  · simp only [if_neg hv]
    refine ⟨Memory.pairwise_insertCell _ _ _ hp' (by simp), fun c h => ?_⟩
    rcases Memory.mem_insertCell.mp h with rfl | h
    · exact ⟨ha, hv⟩
    · exact hc c (List.mem_of_mem_filter h)

/-- A write of a run inside `BUF` keeps the canonical form. -/
theorem Memory.wf_putRun (bs : List Byte) {m : Memory} (hm : m.wf) {a : Nat} (h : a + bs.length ≤ 256) :
    (m.putRun a bs).wf := by
  induction bs generalizing m a with
  | nil => exact hm
  | cons b bs ih =>
    simp only [List.length_cons] at h
    exact ih (Memory.wf_put hm (by omega) b) (by omega)

/-- `MemRead` inside `BUF` answers the bytes of the run (R8). -/
theorem State.memRead_inside (s : State) {addr n : Nat} (h : addr + n ≤ 256) :
    s.memRead addr n = .ok ((List.range n).map (fun k => s.byteAt (addr + k))) := by
  simp [State.memRead, h, Memory.run_eq_map, State.byteAt]

/-- `MemWrite` inside `BUF` stores the run and nothing else (R8). -/
theorem State.memWrite_inside (s : State) {addr : Nat} {bs : List Byte} (h : addr + bs.length ≤ 256) :
    s.memWrite addr bs = .ok { s with buf := s.buf.putRun addr bs } := by
  simp [State.memWrite, h]

@[simp] theorem length_beBytes32 (v : Narrow) : (beBytes32 v).length = 32 := by simp [beBytes32]

@[simp] theorem length_windowBytes (d : Limb) : (windowBytes d).length = 8 := by simp [windowBytes]

end Sys2Proof.Machine
end

