-- ==== Sys2Proof/Laws/Registers.lean ====
section
/-! SUPPORT. Reading a register after a write, in both files, reading a limb after a write of one, and what a wide register
field names. -/

namespace Sys2Proof.Machine

theorem NarrowFile.get_set (f : NarrowFile) (i j : RegField) (v : Narrow) :
    (f.set i v).get j = if j = i then v else f.get j := by
  obtain ⟨⟨i, hi⟩⟩ := i
  obtain ⟨⟨j, hj⟩⟩ := j
  interval_cases i <;> interval_cases j <;> rfl

theorem WideFile.get_set (f : WideFile) (i j : BitVec 2) (v : Wide) :
    (f.set i v).get j = if j = i then v else f.get j := by
  obtain ⟨⟨i, hi⟩⟩ := i
  obtain ⟨⟨j, hj⟩⟩ := j
  interval_cases i <;> interval_cases j <;> rfl

theorem State.readN_writeN (s : State) (i j : RegField) (v : Narrow) :
    (s.writeN i v).readN j = if j = i then v else s.readN j := NarrowFile.get_set s.narrow i j v

theorem State.readW_writeW (s : State) (i j : BitVec 2) (v : Wide) :
    (s.writeW i v).readW j = if j = i then v else s.readW j := WideFile.get_set s.wide i j v

@[simp] theorem State.readN_writeN_self (s : State) (i : RegField) (v : Narrow) : (s.writeN i v).readN i = v := by
  simp [State.readN_writeN]

@[simp] theorem State.readW_writeW_self (s : State) (k : BitVec 2) (v : Wide) : (s.writeW k v).readW k = v := by
  simp [State.readW_writeW]

theorem State.readN_writeN_of_ne (s : State) {i j : RegField} (v : Narrow) (h : j ≠ i) :
    (s.writeN i v).readN j = s.readN j := by simp [State.readN_writeN, h]

theorem State.readW_writeW_of_ne (s : State) {i j : BitVec 2} (v : Wide) (h : j ≠ i) :
    (s.writeW i v).readW j = s.readW j := by simp [State.readW_writeW, h]

/-- A field below 4 names the wide register of its low two bits (R104). -/
theorem wideNumber_of_lt {k : RegField} (h : k.toNat < 4) : wideNumber k = some (k.setWidth 2) := by
  simp [wideNumber, h]

/-- A field of 4 or more names no wide register (R108). -/
theorem wideNumber_of_ge {k : RegField} (h : 4 ≤ k.toNat) : wideNumber k = none := by
  simp [wideNumber]; omega

/-- The bits after a write of limb `j`: those of the data inside the limb, as before outside it. -/
theorem getLsbD_setLimb {n : Nat} (v : BitVec n) (j : Nat) (d : Limb) (i : Nat) (hi : i < n) :
    (setLimb v j d).getLsbD i = if 64 * j ≤ i ∧ i < 64 * j + 64 then d.getLsbD (i - 64 * j) else v.getLsbD i := by
  simp only [setLimb, BitVec.getLsbD_or, BitVec.getLsbD_and, BitVec.getLsbD_not, BitVec.getLsbD_shiftLeft,
    BitVec.getLsbD_setWidth, BitVec.getLsbD_allOnes, hi, decide_true, Bool.true_and]
  by_cases h1 : i < 64 * j
  · simp [h1, show ¬64 * j ≤ i by omega]
  · have h4 : 64 * j ≤ i := by omega
    have h5 : i - 64 * j < n := by omega
    by_cases h2 : i - 64 * j < 64
    · simp [h1, h2, h4, h5, show i < 64 * j + 64 by omega]
    · simp [h1, h2, h4, h5, show ¬i < 64 * j + 64 by omega, BitVec.getLsbD_of_ge d _ (Nat.le_of_not_lt h2)]

/-- The limbs after a write of limb `j`: the data at `j`, every other limb as before (R69). -/
theorem limb_setLimb {n : Nat} (v : BitVec n) (j l : Nat) (d : Limb) (hj : 64 * j + 64 ≤ n) (hl : 64 * l + 64 ≤ n) :
    limb (setLimb v j d) l = if l = j then d else limb v l := by
  apply BitVec.eq_of_getLsbD_eq
  intro i hi
  simp only [limb, BitVec.getLsbD_extractLsb', hi, decide_true, Bool.true_and]
  rw [getLsbD_setLimb _ _ _ _ (by omega)]
  split
  · have : l = j := by omega
    subst this; simp
  · have : l ≠ j := by rintro rfl; omega
    simp [this, hi]

end Sys2Proof.Machine
end

