-- ==== Sys2Proof/Laws/Completion.lean ====
section
/-! SUPPORT. What each shared operation of the meanings can answer, said once; the meanings' proofs cite these. -/

namespace Sys2Proof.Machine

/-- `finish` ends a completion. -/
theorem completed_finish (s : State) (c : ErrCode) : Completed (s.finish c) c := ⟨rfl, rfl⟩

/-- What `finish` keeps of the rest of the model's state. -/
theorem completionKeeps_finish (s : State) (c : ErrCode) : CompletionKeeps s (s.finish c) := by
  simp [CompletionKeeps]

/-- A failing completion answers a next state that differs from the old one, for the host, in the error code alone (R248). -/
theorem wroteOnlyErr_finish (s : State) (c : ErrCode) : WroteOnlyErr s (s.finish c) c :=
  ⟨completed_finish s c, fun _ => rfl, fun _ => rfl, fun _ => rfl, rfl, rfl⟩

theorem State.raiseFail_eq_next (s : State) (c : ErrCode) : s.raiseFail c = .next (s.finish c) := rfl

theorem State.complete_eq_next (s : State) : s.complete = .next (s.finish .ok) := rfl

/-- What `MOD` and `MODW` share: a zero modulus fails, any other writes the residue. -/
theorem reduceInto_cases {w : Nat} (rd : RegField) (a : BitVec w) (n : Narrow) (s : State) :
    (n = 0 ∧ reduceInto rd a n s = .next (s.finish .zeroModulus)) ∨
    (n ≠ 0 ∧ reduceInto rd a n s = .next ((s.writeN rd (residue a n)).finish .ok)) := by
  by_cases h : n = 0
  · exact .inl ⟨h, if_pos h⟩
  · exact .inr ⟨h, if_neg h⟩

/-- What both rows of `MODEXP` share: zero modulus, base out of range, or the controller's result. -/
theorem modexpInto_cases (rd ra rb rn : RegField) (k : Nat) (s : State) :
    (s.readN rn = 0 ∧ modexpInto rd ra rb rn k s = .next (s.finish .zeroModulus)) ∨
    (s.readN rn ≠ 0 ∧ borrowLess (s.readN ra) (s.readN rn) = false ∧
      modexpInto rd ra rb rn k s = .next (s.finish .baseRange)) ∨
    (s.readN rn ≠ 0 ∧ borrowLess (s.readN ra) (s.readN rn) = true ∧
      modexpInto rd ra rb rn k s =
        .next ((s.writeN rd (mxRun (s.readN ra) (s.readN rb) (s.readN rn) k s.hidden)).finish .ok)) := by
  by_cases h : s.readN rn = 0
  · exact .inl ⟨h, if_pos h⟩
  · cases hb : borrowLess (s.readN ra) (s.readN rn) with
    | false => exact .inr (.inl ⟨h, rfl, (if_neg h).trans (if_pos hb)⟩)
    | true => exact .inr (.inr ⟨h, rfl, (if_neg h).trans (if_neg (by simp [hb]))⟩)

/-- What `FROMBF` and `FROMBV` share: a run outside `BUF` fails, a run inside becomes the register. -/
theorem parseInto_cases (rd : RegField) (addr len : Nat) (s : State) :
    (256 < addr + len ∧ parseInto rd addr len s = .next (s.finish .bufRange)) ∨
    (addr + len ≤ 256 ∧ parseInto rd addr len s =
      .next ((s.writeN rd (BitVec.ofNat 256 (beNat ((List.range len).map fun k => s.byteAt (addr + k))))).finish .ok)) := by
  by_cases h : addr + len ≤ 256
  · simp [parseInto, runInside, h, State.memRead_inside, State.complete]
  · simp only [parseInto, runInside, h, decide_false, Bool.false_eq_true, if_false, State.raiseFail, and_true, false_and,
      or_false]
    omega

/-- What `TOB` answers: a run outside `BUF` fails, a run inside takes the 32 bytes. -/
theorem execTob_cases (rs : RegField) (addr : BitVec 8) (s : State) :
    (256 < addr.toNat + 32 ∧ execTob rs addr s = .next (s.finish .bufRange)) ∨
    (addr.toNat + 32 ≤ 256 ∧ execTob rs addr s =
      .next (State.finish { s with buf := s.buf.putRun addr.toNat (beBytes32 (s.readN rs)) } .ok)) := by
  by_cases h : addr.toNat + 32 ≤ 256
  · simp [execTob, runInside, h, State.memWrite_inside, State.complete]
  · simp only [execTob, runInside, h, decide_false, Bool.false_eq_true, if_false, State.raiseFail, and_true, false_and,
      or_false]
    omega

/-- A command's writes before its end touch registers, `BUF` and flags only. -/
def SameOutsideDatapath (s u : State) : Prop :=
  u.err = s.err ∧ u.phase = s.phase ∧ u.curCmd = s.curCmd ∧ u.hidden = s.hidden ∧ u.reply = s.reply ∧ u.port = s.port ∧
    u.left = s.left ∧ u.clock = s.clock ∧ u.freeCount = s.freeCount

/-- The outcome is the end of a completion with its code: of the old state when it is a failure, and otherwise of a state that
differs from it in registers, `BUF` and flags only. -/
def EndsCompletion (s : State) (r : Result) : Prop :=
  ∃ u c, r = .next (u.finish c) ∧ (c ≠ .ok → u = s) ∧ SameOutsideDatapath s u

theorem endsCompletion_fail (s : State) (c : ErrCode) : EndsCompletion s (.next (s.finish c)) :=
  ⟨s, c, rfl, fun _ => rfl, rfl, rfl, rfl, rfl, rfl, rfl, rfl, rfl, rfl⟩

theorem endsCompletion_ok {s u : State} (h : SameOutsideDatapath s u) : EndsCompletion s (.next (u.finish .ok)) :=
  ⟨u, .ok, rfl, fun h => absurd rfl h, h⟩

/-- Every command answers a next state, and it is the end of a completion (R34). -/
theorem exec_endsCompletion (i : Instr) (s : State) : EndsCompletion s (exec i s) := by
  have ok : ∀ u : State, SameOutsideDatapath s u → EndsCompletion s (.next (u.finish .ok)) := fun _ => endsCompletion_ok
  have fail := endsCompletion_fail s
  have same : ∀ rd v, SameOutsideDatapath s (s.writeN rd v) := fun _ _ => ⟨rfl, rfl, rfl, rfl, rfl, rfl, rfl, rfl, rfl⟩
  cases i with
  | add rd ra rb => exact ok _ ⟨rfl, rfl, rfl, rfl, rfl, rfl, rfl, rfl, rfl⟩
  | sub rd ra rb => exact ok _ ⟨rfl, rfl, rfl, rfl, rfl, rfl, rfl, rfl, rfl⟩
  | lt ra rb => exact ok _ ⟨rfl, rfl, rfl, rfl, rfl, rfl, rfl, rfl, rfl⟩
  | mul wd ra rb =>
    simp only [exec, execMul]
    split
    · exact ok _ ⟨rfl, rfl, rfl, rfl, rfl, rfl, rfl, rfl, rfl⟩
    · exact fail .illegal
  | mod rd ra rn =>
    rcases reduceInto_cases rd (s.readN ra) (s.readN rn) s with ⟨-, h⟩ | ⟨-, h⟩ <;> rw [exec, execMod, h]
    · exact fail _
    · exact ok _ (same _ _)
  | modw rd wa rn =>
    simp only [exec, execModw]
    split
    · rename_i k hk
      rcases reduceInto_cases rd (s.readW k) (s.readN rn) s with ⟨-, h⟩ | ⟨-, h⟩ <;> rw [h]
      · exact fail _
      · exact ok _ (same _ _)
    · exact fail .illegal
  | modexp rd ra rb rn bbits =>
    rcases modexpInto_cases rd ra rb rn bbits.toNat s with ⟨-, h⟩ | ⟨-, -, h⟩ | ⟨-, -, h⟩ <;> rw [exec, execModexp, h]
    · exact fail _
    · exact fail _
    · exact ok _ (same _ _)
  | modexp256 rd ra rb rn =>
    rcases modexpInto_cases rd ra rb rn 256 s with ⟨-, h⟩ | ⟨-, -, h⟩ | ⟨-, -, h⟩ <;> rw [exec, execModexp256, h]
    · exact fail _
    · exact fail _
    · exact ok _ (same _ _)
  | frombf rd addr len =>
    simp only [exec, execFrombf]
    split
    · rcases parseInto_cases rd addr.toNat 32 s with ⟨-, h⟩ | ⟨-, h⟩ <;> rw [h]
      · exact fail _
      · exact ok _ (same _ _)
    · exact fail .length
  | frombv rd addr len =>
    simp only [exec, execFrombv]
    split
    · rcases parseInto_cases rd addr.toNat len.toNat s with ⟨-, h⟩ | ⟨-, h⟩ <;> rw [h]
      · exact fail _
      · exact ok _ (same _ _)
    · exact fail .length
  | tob rs addr =>
    rcases execTob_cases rs addr s with ⟨-, h⟩ | ⟨-, h⟩ <;> rw [exec, h]
    · exact fail _
    · exact ok _ ⟨rfl, rfl, rfl, rfl, rfl, rfl, rfl, rfl, rfl⟩

/-- The engine's `Complete` step answers a next state, and it is the end of a completion (R34, R110). -/
theorem engineComplete_endsCompletion (s : State) : EndsCompletion s (engineComplete s) := by
  unfold engineComplete
  split
  · exact exec_endsCompletion _ s
  · exact endsCompletion_fail s .illegal

/-- The step, case by case (R33 to R35, R270): while idle the next event takes effect or a quiet cycle passes; while a command
runs an event that can takes effect before the completion, and otherwise the engine completes. -/
theorem step_cases (s : State) :
    (s.phase = .idle ∧ s.port = [] ∧ step s = .next (quietCycle s)) ∨
    (∃ e rest, s.phase = .idle ∧ s.port = e :: rest ∧ step s = .next (idleStep e { s with port := rest })) ∨
    (∃ e rest t, s.phase = .exec ∧ s.port = e :: rest ∧ busyStep e { s with port := rest } = some t ∧ step s = .next t) ∨
    (s.phase = .exec ∧ (∀ e rest, s.port = e :: rest → busyStep e { s with port := rest } = none) ∧
      step s = engineComplete s) := by
  unfold step portStep
  cases hp : s.phase <;> cases hq : s.port with
  | nil => simp
  | cons e rest => cases hb : busyStep e { s with port := rest } <;> simp_all

end Sys2Proof.Machine
end

