-- ==== Sys2Proof/Laws/PerInstr.lean ====
section
/-! SUPPORT. Laws of the instructions as syntax, one lemma per constructor: the word an instruction is encoded to has the
opcode byte of its row of the opcode map (spec 30_encoding.md R103, R114). -/

namespace Sys2Proof.Laws.OpcodeByte

/-- The opcode byte of the instruction's row (R103). -/
def opcodeOf : Instr → Nat
  | .add _ _ _ => 0x01
  | .sub _ _ _ => 0x02
  | .lt _ _ => 0x03
  | .mul _ _ _ => 0x04
  | .mod _ _ _ => 0x05
  | .modw _ _ _ => 0x06
  | .modexp _ _ _ _ _ => 0x07
  | .modexp256 _ _ _ _ => 0x07
  | .frombf _ _ _ => 0x08
  | .frombv _ _ _ => 0x09
  | .tob _ _ => 0x0A

/-- The encoded word carries the opcode byte of its row. -/
def Statement (i : Instr) : Prop := (opField (encode i)).toNat = opcodeOf i

/-- A register-format word carries its opcode byte. -/
theorem opField_registerWord {op : Nat} (fd fa fb fn : RegField) {bbits : Nat} (ho : op < 256) (hb : bbits < 512) :
    (opField (registerWord op fd fa fb fn bbits)).toNat = op := by
  simp only [opField, registerWord, BitVec.extractLsb'_toNat, BitVec.toNat_ofNat, Nat.shiftRight_eq_div_pow, Nat.reducePow]
  have := fd.isLt
  omega

/-- A buffer-format word carries its opcode byte. -/
theorem opField_bufferWord {op : Nat} (fd : RegField) (len : BitVec 6) (addr : BitVec 8) (ho : op < 256) :
    (opField (bufferWord op fd len addr)).toNat = op := by
  simp only [opField, bufferWord, BitVec.extractLsb'_toNat, BitVec.toNat_ofNat, Nat.shiftRight_eq_div_pow, Nat.reducePow]
  have := fd.isLt
  omega

theorem add (rd ra rb : RegField) : Statement (.add rd ra rb) := opField_registerWord _ _ _ _ (by omega) (by omega)
theorem sub (rd ra rb : RegField) : Statement (.sub rd ra rb) := opField_registerWord _ _ _ _ (by omega) (by omega)
theorem lt (ra rb : RegField) : Statement (.lt ra rb) := opField_registerWord _ _ _ _ (by omega) (by omega)
theorem mul (wd ra rb : RegField) : Statement (.mul wd ra rb) := opField_registerWord _ _ _ _ (by omega) (by omega)
theorem mod (rd ra rn : RegField) : Statement (.mod rd ra rn) := opField_registerWord _ _ _ _ (by omega) (by omega)
theorem modw (rd wa rn : RegField) : Statement (.modw rd wa rn) := opField_registerWord _ _ _ _ (by omega) (by omega)
theorem modexp (rd ra rb rn : RegField) (bbits : BitVec 8) : Statement (.modexp rd ra rb rn bbits) :=
  opField_registerWord _ _ _ _ (by omega) (by omega)
theorem modexp256 (rd ra rb rn : RegField) : Statement (.modexp256 rd ra rb rn) :=
  opField_registerWord _ _ _ _ (by omega) (by omega)
theorem frombf (rd : RegField) (addr : BitVec 8) (len : BitVec 6) : Statement (.frombf rd addr len) :=
  opField_bufferWord _ _ _ (by omega)
theorem frombv (rd : RegField) (addr : BitVec 8) (len : BitVec 6) : Statement (.frombv rd addr len) :=
  opField_bufferWord _ _ _ (by omega)
theorem tob (rs : RegField) (addr : BitVec 8) : Statement (.tob rs addr) := opField_bufferWord _ _ _ (by omega)

end Sys2Proof.Laws.OpcodeByte
end

