-- ==== Sys2Proof/Laws/Port.lean ====
section
/-! SUPPORT. The host port: what a step is with an event at the head of the queue, what an event does before a completion,
what every completion leaves, and the bytes of the `BUF` window. -/

namespace Sys2Proof.Machine

/-- While idle the next event takes effect (R67). -/
theorem step_idle {s : State} {e : HostEvent} {rest : List HostEvent} (hp : s.phase = .idle) (hq : s.port = e :: rest) :
    step s = .next (idleStep e { s with port := rest }) := by
  cases s; cases hp; cases hq; rfl

/-- While a command runs an event that can take effect before the completion does, and otherwise the engine completes (R35). -/
theorem step_exec {s : State} {e : HostEvent} {rest : List HostEvent} (hp : s.phase = .exec) (hq : s.port = e :: rest) :
    step s = match busyStep e { s with port := rest } with
      | some t => .next t
      | none => engineComplete s := by
  cases s; cases hp; cases hq; rfl

/-- The three events that take effect while a command runs: a reset, an idle cycle, a read of `STATUS` (R35, R272). -/
theorem busyStep_cases {e : HostEvent} {s t : State} (h : busyStep e s = some t) :
    (e = .reset ∧ t = resetCycle s) ∨ (e = .idle ∧ 0 < s.left ∧ t = { quietCycle s with left := s.left - 1 }) ∨
    (e = .read 0x308 ∧ 0 < s.left ∧ t = { acceptRead 0x308 s with left := s.left - 1 }) := by
  cases e with
  | reset => cases h; exact .inl ⟨rfl, rfl⟩
  | idle =>
    simp only [busyStep] at h
    split at h <;> cases h
    exact .inr (.inl ⟨rfl, by assumption, rfl⟩)
  | await => cases h
  | read addr =>
    simp only [busyStep] at h
    split at h
    · rename_i ha
      subst ha
      split at h <;> cases h
      exact .inr (.inr ⟨rfl, by assumption, rfl⟩)
    · cases h
  | write addr d => cases h

/-- What every completion leaves outside registers, `BUF`, flags and code (R34). -/
theorem engineComplete_keeps {s t : State} (h : engineComplete s = .next t) :
    t.port = s.port ∧ t.reply = s.reply ∧ t.curCmd = s.curCmd ∧ t.phase = .idle ∧ t.clock = s.clock + s.left ∧
      t.left = 0 := by
  obtain ⟨u, c, e, -, -, -, e3, -, e5, e6, e7, e8, -⟩ := engineComplete_endsCompletion s
  rw [e] at h; cases h
  exact ⟨e6, e5, e3, rfl, by simp [e7, e8], rfl⟩

/-- A bus address is aligned when its low three bits are zero (R66). -/
theorem aligned_iff (addr : BusAddr) : addr.extractLsb' 0 3 = 0 ↔ addr.toNat % 8 = 0 := by
  constructor
  · intro h; simpa [BitVec.extractLsb'_toNat] using congrArg BitVec.toNat h
  · intro h; apply BitVec.eq_of_toNat_eq; simpa [BitVec.extractLsb'_toNat] using h

/-- The bytes of a doubleword written through the window (R64). -/
theorem windowBytes_getD (d : Limb) {b : Nat} (hb : b < 8) : (windowBytes d).getD b 0 = d.extractLsb' (8 * b) 8 := by
  simp [windowBytes, List.getD, hb]

end Sys2Proof.Machine
end

