-- ==== Sys2Proof/Tests/Slice0.lean ====
section
/-! SUPPORT. Small tests. Words and expected values are those of spec 30_encoding.md R112 and 95_test_vectors.md (the row is
named at each test); the witnesses show that the hypotheses of the statements can be met, at the boundary values of each
clause. -/

namespace Sys2Proof.Tests

open Sys2Proof Sys2Proof.Machine

-- One test after another: each waits for the kernel, and many waiting at once take a thread each.
set_option Elab.async false

/-! ## Helpers -/

/-- What holds of the state an outcome goes on with; a fault or a refusal fails the test. -/
def after (r : Result) (p : State → Bool) : Bool :=
  match r with
  | .next t => p t
  | .fault _ => false
  | .refused _ => false

/-- The decoder reads the command `i` from the word. -/
def reads (w : CmdWord) (i : Instr) : Bool :=
  match decode w with
  | .ok j => decide (i = j)
  | .error _ => false

/-- The decoder refuses the word. -/
def refuses (w : CmdWord) : Bool :=
  match decode w with
  | .ok _ => false
  | .error _ => true

/-- The reset state with `r0`, `r1`, `r2` as given and the marker `0x77` in `r3`. -/
def holding (x0 x1 x2 : Narrow) : State :=
  (((State.reset.writeN 0 x0).writeN 1 x1).writeN 2 x2).writeN 3 0x77

/-- The reset state with `n` bytes `BUF[a + k] = a + k`, and the marker `0x77` in `r1`. -/
def counting (a n : Nat) : State :=
  { State.reset.writeN 1 0x77 with buf := Memory.putRun [] a ((List.range n).map fun k => BitVec.ofNat 8 (a + k)) }

/-- `s` with the command word `w` accepted, `n` busy cycles to come, and the host about to do `e`. -/
def running (w : CmdWord) (n : Nat) (e : List HostEvent) (s : State) : State :=
  { s with curCmd := w, phase := .exec, left := n, port := e }

/-- `s` with the host about to do `e`. -/
def withHost (e : List HostEvent) (s : State) : State := { s with port := e }

/-! ## Decoding: the words of R112 and D-DEC -/

theorem test_decode_add : reads 0x01650000 (.add 3 1 2) = true := by decide +kernel
theorem test_decode_add_all_ones : reads 0x01FF8000 (.add 7 7 7) = true := by decide +kernel
theorem test_decode_sub : reads 0x024D0000 (.sub 2 3 2) = true := by decide +kernel
theorem test_decode_lt : reads 0x03050000 (.lt 1 2) = true := by decide +kernel
theorem test_decode_mul : reads 0x04650000 (.mul 3 1 2) = true := by decide +kernel
theorem test_decode_mod : reads 0x05640000 (.mod 3 1 0) = true := by decide +kernel
theorem test_decode_modw : reads 0x06EC7000 (.modw 7 3 7) = true := by decide +kernel
theorem test_decode_modexp : reads 0x07650003 (.modexp 3 1 2 0 3) = true := by decide +kernel
theorem test_decode_modexp_255 : reads 0x076500FF (.modexp 3 1 2 0 255) = true := by decide +kernel
theorem test_decode_modexp256 : reads 0x07650100 (.modexp256 3 1 2 0) = true := by decide +kernel
theorem test_decode_frombf : reads 0x08202000 (.frombf 1 0 32) = true := by decide +kernel
theorem test_decode_frombv : reads 0x09200340 (.frombv 1 0x40 3) = true := by decide +kernel
theorem test_decode_tob : reads 0x0AE000E0 (.tob 7 224) = true := by decide +kernel

/-- D-DEC 1 to 20. -/
theorem test_decode_refuses :
    ([0x00000000, 0xFFFFFFFF, 0x0B000000, 0x01650001, 0x01651000, 0x01654000, 0x03250000, 0x04850000, 0x04E50000, 0x05648000,
      0x05640800, 0x06700000, 0x07650101, 0x076501FF, 0x07650200, 0x08204000, 0x08240000, 0x09210000, 0x0A200120,
      0x0A210020] : List CmdWord).all refuses = true := by decide +kernel

theorem test_encode_words :
    encode (.add 3 1 2) = 0x01650000 ∧ encode (.sub 2 3 2) = 0x024D0000 ∧ encode (.lt 1 2) = 0x03050000 ∧
    encode (.mul 0 1 2) = 0x04050000 ∧ encode (.mod 3 1 0) = 0x05640000 ∧ encode (.modw 3 0 0) = 0x06600000 ∧
    encode (.modexp 3 1 2 0 3) = 0x07650003 ∧ encode (.modexp256 3 1 2 0) = 0x07650100 ∧
    encode (.frombf 1 0 32) = 0x08202000 ∧ encode (.frombv 1 0x40 3) = 0x09200340 ∧
    encode (.tob 1 0x20) = 0x0A200020 := by decide +kernel

theorem test_decodeTableWord : decodeTableWord 32 0x01650000 = some (.add 3 1 2) ∧ decodeTableWord 32 0 = none := by
  decide +kernel

/-! ## Well-formedness: an ill-formed term for each check -/

theorem test_wellFormed_mul : (Instr.mul 3 7 7).wellFormed = true ∧ (Instr.mul 4 7 7).wellFormed = false := by decide
theorem test_wellFormed_modw : (Instr.modw 7 3 7).wellFormed = true ∧ (Instr.modw 7 4 7).wellFormed = false := by decide

/-! ## One command each -/

/-- D-ADD 8: the carry enters at limb 1 and leaves limb 3. -/
theorem test_add_carry :
    after (exec (.add 3 1 2) (holding 0 0xFFFFFFFFFFFFFFFFFFFFFFFFFFFFFFFFFFFFFFFFFFFFFFFF0000000000000000 0x10000000000000000))
      (fun t => t.readN 3 == 0 && t.flagC && t.readN 2 == 0x10000000000000000) = true := by decide +kernel
/-- D-ADD, aliasing: the destination is both sources. -/
theorem test_add_alias :
    after (exec (.add 1 1 1) (holding 0 0x8000000000000000000000000000000000000000000000000000000000000001 0))
      (fun t => t.readN 1 == 2 && t.flagC && t.readN 3 == 0x77) = true := by decide +kernel
/-- D-SUB 6: the borrow crosses three limb boundaries and stops. -/
theorem test_sub_borrow :
    after (exec (.sub 3 1 2) ((holding 0 0x1000000000000000000000000000000000000000000000000 1).setC true))
      (fun t => t.readN 3 == 0xFFFFFFFFFFFFFFFFFFFFFFFFFFFFFFFFFFFFFFFFFFFFFFFF && !t.flagC) = true := by decide +kernel
/-- D-SUB, aliasing: the subtrahend is overwritten. -/
theorem test_sub_alias :
    after (exec (.sub 2 3 2) ((holding 0 0 1).writeN 3 0))
      (fun t => t.readN 2 == BitVec.allOnes 256 && t.flagC) = true := by decide +kernel
/-- D-LT 6: unsigned, not signed. -/
theorem test_lt_unsigned :
    after (exec (.lt 1 2) ((holding 0 0x8000000000000000000000000000000000000000000000000000000000000000
        0x7FFFFFFFFFFFFFFFFFFFFFFFFFFFFFFFFFFFFFFFFFFFFFFFFFFFFFFFFFFFFFFF).setLT true))
      (fun t => !t.flagLT && !t.flagC) = true := by decide +kernel
/-- D-LT 13: the higher limb decides; `C` stays. -/
theorem test_lt_limbs :
    after (exec (.lt 1 2) ((holding 0 0xFFFFFFFFFFFFFFFF 0x10000000000000000).setC true))
      (fun t => t.flagLT && t.flagC && t.readN 3 == 0x77) = true := by decide +kernel
/-- D-MUL 10: cross terms. -/
theorem test_mul_cross :
    after (exec (.mul 0 1 2) (holding 0 0x1000000000000000000000000000000000000000000000001
        0x1000000000000000000000000000000000000000000000001))
      (fun t => t.readW 0 ==
        0x1000000000000000000000000000000000000000000000002000000000000000000000000000000000000000000000001) = true := by
  decide +kernel
/-- D-MUL 3: the largest product. -/
theorem test_mul_largest :
    after (exec (.mul 3 1 2) (holding 0 (BitVec.allOnes 256) (BitVec.allOnes 256)))
      (fun t => t.readW 3 == 0xFFFFFFFFFFFFFFFFFFFFFFFFFFFFFFFFFFFFFFFFFFFFFFFFFFFFFFFFFFFFFFFE0000000000000000000000000000000000000000000000000000000000000001 &&
        t.readW 0 == 0) = true := by decide +kernel
/-- D-MOD 1. -/
theorem test_mod : after (exec (.mod 3 1 0) (holding 23 1024 0)) (fun t => t.readN 3 == 12 && t.err == .ok) = true := by
  decide +kernel
/-- D-MOD 10: a zero modulus. -/
theorem test_mod_zero :
    after (exec (.mod 3 1 0) (holding 0 0 0)) (fun t => t.readN 3 == 0x77 && t.err == .zeroModulus) = true := by decide +kernel
/-- D-MODW 5: the largest product modulo 2^256 - 189. -/
theorem test_modw :
    after (exec (.modw 3 0 0) ((holding 0xFFFFFFFFFFFFFFFFFFFFFFFFFFFFFFFFFFFFFFFFFFFFFFFFFFFFFFFFFFFFFF43 0 0).writeW 0
        0xFFFFFFFFFFFFFFFFFFFFFFFFFFFFFFFFFFFFFFFFFFFFFFFFFFFFFFFFFFFFFFFE0000000000000000000000000000000000000000000000000000000000000001))
      (fun t => t.readN 3 == 0x8A10 && t.err == .ok) = true := by decide +kernel
/-- D-MODEXP 6: the exponent bits below `bbits`. -/
theorem test_modexp :
    after (exec (.modexp 3 1 2 0 4) (holding 23 4 13)) (fun t => t.readN 3 == 16 && t.err == .ok) = true := by decide +kernel
/-- D-MODEXP 13: the base equals the modulus. -/
theorem test_modexp_base :
    after (exec (.modexp 3 1 2 0 3) (holding 23 23 5)) (fun t => t.readN 3 == 0x77 && t.err == .baseRange) = true := by
  decide +kernel
/-- D-MODEXP 7: all 256 iterations. -/
theorem test_modexp256 :
    after (exec (.modexp256 3 1 2 0) (holding 23 4 5)) (fun t => t.readN 3 == 12 && t.err == .ok) = true := by decide +kernel
/-- D-CONV 3: an address that is a multiple of nothing. -/
theorem test_frombf :
    after (exec (.frombf 1 3 32) (counting 3 32))
      (fun t => t.readN 1 == 0x030405060708090A0B0C0D0E0F101112131415161718191A1B1C1D1E1F202122 && t.err == .ok) = true := by
  decide +kernel
/-- D-CONV 7: length and run both wrong. -/
theorem test_frombf_length :
    after (exec (.frombf 1 250 63) (counting 0 0)) (fun t => t.readN 1 == 0x77 && t.err == .length) = true := by
  decide +kernel
/-- D-CONV 12: the run ends at the last byte. -/
theorem test_frombv :
    after (exec (.frombv 1 250 6) (counting 250 6)) (fun t => t.readN 1 == 0xFAFBFCFDFEFF && t.err == .ok) = true := by
  decide +kernel
/-- D-CONV 13: one byte too far. -/
theorem test_frombv_range :
    after (exec (.frombv 1 250 7) (counting 250 6)) (fun t => t.readN 1 == 0x77 && t.err == .bufRange) = true := by
  decide +kernel
/-- D-CONV, `TOB` 1, over bytes that were not zero; the neighbours keep theirs. -/
theorem test_tob :
    after (exec (.tob 1 32) ((counting 31 34).writeN 1 0x102))
      (fun t => t.byteAt 62 == 1 && t.byteAt 63 == 2 && t.byteAt 32 == 0 && t.byteAt 31 == 31 && t.byteAt 64 == 64 &&
        decide t.buf.wf) = true := by decide +kernel
/-- D-CONV, mixed view (R73): the window reads limb 3 with its bytes reversed. -/
theorem test_tob_window :
    after (exec (.tob 1 0x20) (holding 0 0xA0A1A2A3A4A5A6A7A8A9AAABACADAEAFB0B1B2B3B4B5B6B7B8B9BABBBCBDBEBF 0))
      (fun t => (hostRead t 0x220).1 == 0xA7A6A5A4A3A2A1A0 && (hostRead t 0x238).1 == 0xBFBEBDBCBBBAB9B8) = true := by
  decide +kernel

/-- D-DEC 8: an illegal word changes only `ERR`; the upper half of the `CMD` data is ignored (R29). -/
theorem test_illegal_word :
    after (step (running (wordOfBus 0xDEADBEEF04850000) 0 [] (holding 0 5 7)))
      (fun t => t.err == .illegal && t.statusWord == 0x40 && t.readN 1 == 5 && t.readW 0 == 0) = true := by decide +kernel

/-- A placed word is the very next step. -/
theorem test_withFetchWord :
    after (step ((holding 0 5 7).withFetchWord 32 0x01650000)) (fun t => t.readN 3 == 12 && t.phase == .idle) = true := by
  decide +kernel

/-! ## The host port: D-BUS -/

/-- D-BUS 1, 2, 7, 10, 12 and 18. -/
theorem test_bus_register :
    (let s := holding 0 0xA0A1A2A3A4A5A6A7A8A9AAABACADAEAFB0B1B2B3B4B5B6B7B8B9BABBBCBDBEBF 0
     decide (hostRead s 0x020 = (0xB8B9BABBBCBDBEBF, false) ∧ hostRead s 0x038 = (0xA0A1A2A3A4A5A6A7, false) ∧
      hostRead s 0x300 = (0, false) ∧ hostRead s 0x318 = (0, true) ∧ hostRead s 0x024 = (0, true) ∧
      (hostWrite s 0x028 0x1122334455667788).1.readN 1 =
        0xA0A1A2A3A4A5A6A7A8A9AAABACADAEAF1122334455667788B8B9BABBBCBDBEBF)) = true := by decide +kernel

/-- D-CONV, its start, and D-BUS 6: the window's last doubleword. -/
theorem test_bus_window :
    (let s := (hostWrite State.reset 0x2F8 0xFFFEFDFCFBFAF9F8).1
     decide ((hostRead s 0x2F8).1 = 0xFFFEFDFCFBFAF9F8 ∧ s.byteAt 248 = 0xF8 ∧ s.byteAt 255 = 0xFF ∧ s.buf.wf)) = true := by
  decide +kernel

/-- D-BUS, busy window: a poll shows `BUSY` and the previous code, another read is held. -/
theorem test_bus_busy :
    after (step (running 0x01650000 2 [.read 0x308] { holding 0 5 7 with err := .bufRange }))
      (fun t => t.reply == some (.read 0x51 false) && t.left == 1 && t.phase == .exec) = true ∧
    after (step (running 0x01650000 2 [.read 0x060] (holding 0 5 7)))
      (fun t => t.reply == none && t.port == [.read 0x060] && t.readN 3 == 12 && t.phase == .idle) = true := by
  decide +kernel

/-- The write of a command starts it (P1's first command). -/
theorem test_bus_command :
    after (step (withHost [.write 0x300 0x01650000] (holding 0 5 7)))
      (fun t => t.reply == some (.write false) && t.phase == .exec && t.curCmd == 0x01650000 && t.readN 3 == 0x77) = true := by
  decide +kernel

/-- Reset while a command runs (R272). -/
theorem test_reset_cycle :
    after (step (running 0x01650000 2 [.reset] (holding 1 5 7)))
      (fun t => t.phase == .idle && t.readN 0 == 0 && t.readN 3 == 0 && t.curCmd == 0) = true := by decide +kernel

/-! ## Witnesses: the hypotheses of the statements can be met -/

theorem witness_DecodeEncodeRoundTrip :
    (Instr.mul 3 7 7).wellFormed = true ∧ (Instr.modw 7 3 7).wellFormed = true ∧
    (Instr.modexp 7 7 7 7 255).wellFormed = true ∧ reads 0x07FFF0FF (.modexp 7 7 7 7 255) = true ∧
    reads 0x07FFF100 (.modexp256 7 7 7 7) = true := by decide +kernel

theorem witness_DecodeAgreesWithOpcodeMap :
    rowOf (.tob 0 0) ∈ opcodeRows ∧ (rowOf (.tob 0 0)).admits 0x0AE000FF = true ∧ reads 0x0AE000FF (.tob 7 255) = true := by
  decide +kernel

theorem witness_IllegalWordWritesOnlyCode4 :
    let s := running 0x04850000 0 [] State.reset
    engineTurn s ∧ ∀ i, decode s.curCmd ≠ .ok i := by
  refine ⟨⟨rfl, trivial⟩, fun i h => ?_⟩
  have e : decode 0x04850000 = .error (.wideRegister 4) := rfl
  exact nomatch (show Except.error _ = Except.ok i from e.symm.trans h)

theorem witness_WideNumberAbove3IsIllegal : 4 ≤ (4 : RegField).toNat ∧ 4 ≤ (7 : RegField).toNat := by decide

/-- Every shape of an engine's turn: nothing to come, an idle cycle or a poll after the last busy cycle, a wait, a held read
and a held write. -/
theorem witness_StepRunsDecodedInstruction :
    engineTurn (running 0x01650000 5 [] State.reset) ∧ engineTurn (running 0x01650000 0 [.idle] State.reset) ∧
    engineTurn (running 0x01650000 0 [.read 0x308] State.reset) ∧ engineTurn (running 0x01650000 5 [.await] State.reset) ∧
    engineTurn (running 0x01650000 5 [.read 0x300] State.reset) ∧
    engineTurn (running 0x01650000 5 [.write 0x300 0] State.reset) ∧
    decode (running 0x01650000 5 [] State.reset).curCmd = .ok (.add 3 1 2) := by
  refine ⟨⟨rfl, trivial⟩, ⟨rfl, rfl⟩, ⟨rfl, fun _ => rfl⟩, ⟨rfl, trivial⟩, ⟨rfl, fun h => ?_⟩, ⟨rfl, trivial⟩, rfl⟩
  exact absurd h (by decide)

theorem witness_FetchWordRunsNext : (Instr.mul 3 7 7).wellFormed = true := by decide

theorem witness_StepKeepsInv :
    (withHost [.write 0x2F8 1] State.reset).Inv ∧
    ∃ t, step (withHost [.write 0x2F8 1] State.reset) = .next t ∧ t.buf = [(248, 1)] :=
  ⟨by decide, _, rfl, by decide⟩

theorem witness_CommandEndsWithinItsBusyCycles :
    (running 0x01650000 2 [.idle, .read 0x308, .idle] State.reset).phase = .exec := rfl

/-- The two cases of the difference, at equality and one below. -/
theorem witness_SubIsExactDifference :
    ((holding 0 5 5).readN 2).toNat ≤ ((holding 0 5 5).readN 1).toNat ∧
    ((holding 0 5 6).readN 1).toNat < ((holding 0 5 6).readN 2).toNat := by decide

theorem witness_AddThenSubRecovers : (3 : RegField) ≠ 2 := by decide

theorem witness_MulIsExactProduct :
    (3 : RegField).toNat < 4 ∧ (0 : BitVec 2) ≠ (3 : RegField).setWidth 2 := by decide

theorem witness_ModAndModwAreResidues :
    (3 : RegField).toNat < 4 ∧ (holding 1 5 6).readN 0 ≠ 0 ∧
    ((holding 1 5 6).writeW 3 5).readW ((3 : RegField).setWidth 2) =
      (((holding 1 5 6).writeW 3 5).readN 1).setWidth 512 := by decide +kernel

theorem witness_ZeroModulusWritesOnlyCode1 : (holding 0 5 6).readN 0 = 0 ∧ (3 : RegField).toNat < 4 := by decide

/-- The base one below the modulus, and the smallest modulus. -/
theorem witness_ModexpIsPower :
    ((holding 23 22 5).readN 1).toNat < ((holding 23 22 5).readN 0).toNat ∧
    ((holding 1 0 5).readN 1).toNat < ((holding 1 0 5).readN 0).toNat ∧ (22 : Narrow).toNat < (23 : Narrow).toNat ∧
    256 ≤ 256 := by decide

/-- The three outcomes where they meet: a zero modulus with a base not below it, a base equal to the modulus, a base one
below it. -/
theorem witness_ModexpChecksInOrder :
    (∃ bbits, Instr.modexp 3 1 2 0 255 = .modexp 3 1 2 0 bbits) ∧ (holding 0 0 5).readN 0 = 0 ∧
    ((holding 23 23 5).readN 0 ≠ 0 ∧ ((holding 23 23 5).readN 0).toNat ≤ ((holding 23 23 5).readN 1).toNat) ∧
    ((holding 23 22 5).readN 0 ≠ 0 ∧ ((holding 23 22 5).readN 1).toNat < ((holding 23 22 5).readN 0).toNat) :=
  ⟨⟨255, rfl⟩, by decide, by decide, by decide⟩

theorem witness_MulThenModwIsModularProduct : (3 : RegField).toNat < 4 ∧ (holding 1 5 6).readN 0 ≠ 0 := by decide

theorem witness_ParseOf32BytesIsBigEndian :
    (224 : BitVec 8).toNat + 32 ≤ 256 ∧
    (Instr.frombv 1 224 32 = .frombf 1 224 32 ∨ Instr.frombv 1 224 32 = .frombv 1 224 32) := by decide

/-- The longest run, the empty run, and a run that ends at the last byte. -/
theorem witness_FrombvZeroExtends :
    ((32 : BitVec 6).toNat ≤ 32 ∧ (224 : BitVec 8).toNat + (32 : BitVec 6).toNat ≤ 256) ∧
    ((0 : BitVec 6).toNat ≤ 32 ∧ (255 : BitVec 8).toNat + (0 : BitVec 6).toNat ≤ 256) ∧
    ((1 : BitVec 6).toNat ≤ 32 ∧ (255 : BitVec 8).toNat + (1 : BitVec 6).toNat ≤ 256) := by decide

theorem witness_ParseLengthBeforeRange :
    (31 : BitVec 6).toNat ≠ 32 ∧ (33 : BitVec 6).toNat ≠ 32 ∧ 32 < (33 : BitVec 6).toNat ∧ 32 < (63 : BitVec 6).toNat := by
  decide

theorem witness_RunOutsideBufWritesOnlyCode5 :
    256 < (225 : BitVec 8).toNat + 32 ∧ (2 : BitVec 6).toNat ≤ 32 ∧ 256 < (255 : BitVec 8).toNat + (2 : BitVec 6).toNat := by
  decide

/-- The highest legal address, and the bytes on either side of a run. -/
theorem witness_TobWritesBigEndian :
    (224 : BitVec 8).toNat + 32 ≤ 256 ∧ ¬((224 : BitVec 8).toNat ≤ 223 ∧ 223 < (224 : BitVec 8).toNat + 32) ∧
    ¬((223 : BitVec 8).toNat ≤ 255 ∧ 255 < (223 : BitVec 8).toNat + 32) := by decide

theorem witness_TobAndParseRoundTrip : (224 : BitVec 8).toNat ≤ 224 ∧ (0 : BitVec 8).toNat ≤ 224 := by decide

theorem witness_FailureWritesNothing :
    ∃ t, engineComplete (running 0x05640000 0 [] (holding 0 5 6)) = .next t ∧ t.err ≠ .ok := ⟨_, rfl, by decide⟩

theorem witness_CommandWritesOnlyItsDestinations :
    (∃ t, exec (.tob 1 224) (holding 0 5 6) = .next t ∧ t.err = .ok) ∧
    (narrowDest (.tob 1 224) ≠ some 1 ∧ wideDest (.mul 3 1 2) ≠ some 0 ∧ writesC (.tob 1 224) = false ∧
      writesLT (.add 3 1 2) = false) ∧
    ¬writesByte (.tob 1 224) 223 ∧ ¬writesByte (.tob 1 223) 255 :=
  ⟨⟨_, rfl, by decide⟩, by decide, fun h => absurd h.1 (by decide), fun h => absurd h.2 (by decide)⟩

/-- Two states that agree on the run a parse reads and differ elsewhere; the parse succeeds. -/
theorem witness_EqualSourcesEqualResults :
    agreeOnSources (.frombv 1 255 1) (holding 0 5 6) ((counting 7 9).setC true) ∧
    ∃ t, exec (.frombv 1 255 1) (holding 0 5 6) = .next t ∧ t.err = .ok := by
  refine ⟨fun k hk => ?_, _, rfl, by decide⟩
  have h : k = 0 := by have : k < 1 := hk; omega
  subst h; decide

theorem witness_ResetCycleFromAnyState :
    (running 0x01650000 2 [.reset, .idle] (holding 1 5 7)).port = [.reset, .idle] := rfl

/-- An address of each kind, the last one of its window where there is a window. -/
theorem witness_HostReadAnswers :
    ((withHost [.read 0x0F8] State.reset).phase = .idle ∧ (withHost [.read 0x0F8] State.reset).port = [.read 0x0F8]) ∧
    (0x0F8 : BusAddr).toNat = 32 * (7 : RegField).toNat + 8 * 3 ∧
    (0x1F8 : BusAddr).toNat = 0x100 + 64 * (3 : BitVec 2).toNat + 8 * 7 ∧ (0x2F8 : BusAddr).toNat = 0x200 + 8 * 31 ∧
    (0x301 : BusAddr).toNat % 8 ≠ 0 ∧ 0x318 ≤ (0x318 : BusAddr).toNat := by decide

theorem witness_HostWriteEffects :
    (withHost [.write 0x100 5] State.reset).phase = .idle ∧
    (withHost [.write 0x100 5] State.reset).port = [.write 0x100 5] ∧
    (0x000 : BusAddr).toNat = 32 * (0 : RegField).toNat + 8 * 0 ∧
    (0x100 : BusAddr).toNat = 0x100 + 64 * (0 : BitVec 2).toNat + 8 * 0 ∧ (0x200 : BusAddr).toNat = 0x200 + 8 * 0 ∧
    ¬(8 * 31 ≤ 247 ∧ 247 < 8 * 31 + 8) ∧ (0x309 : BusAddr).toNat % 8 ≠ 0 ∧ 0x318 ≤ (0x318 : BusAddr).toNat := by decide

theorem witness_AcceptanceStartsCommand :
    (withHost [.write 0x300 5] State.reset).port = [.write 0x300 5] ∧ (withHost [.write 0x300 5] State.reset).phase = .idle ∧
    (running 0x01650000 2 [.write 0x300 5] State.reset).phase = .exec := by decide

/-- A held read and a held write; a poll in the last busy cycle. -/
theorem witness_OnlyStatusReadsWhileBusy :
    (running 0x01650000 2 [.read 0x310] State.reset).phase = .exec ∧ (0x310 : BusAddr) ≠ 0x308 ∧
    (running 0x01650000 2 [.write 0x000 5] State.reset).port = [.write 0x000 5] ∧
    (running 0x01650000 1 [.read 0x308] State.reset).port = [.read 0x308] ∧
    0 < (running 0x01650000 1 [.read 0x308] State.reset).left := by decide

theorem witness_ReadyMeansAccepted :
    ((running 0x01650000 1 [.read 0x308] State.reset).hReady (.read 0x308) = true ∧
      ∃ t, step (running 0x01650000 1 [.read 0x308] State.reset) = .next t) ∧
    ((running 0x01650000 1 [.write 0x000 5] State.reset).hReady (.write 0x000 5) = false ∧
      ∃ t, step (running 0x01650000 1 [.write 0x000 5] State.reset) = .next t) :=
  ⟨⟨by decide, _, rfl⟩, by decide, _, rfl⟩

theorem witness_BusErrorsChangeNothing :
    ∃ t, step (withHost [.write 0x310 5] State.reset) = .next t ∧ t.reply = some (.write true) := ⟨_, rfl, by decide⟩

theorem witness_ErrWrittenOnlyAtCompletion :
    ∃ t, step (running 0x01650000 1 [.idle] State.reset) = .next t ∧ t.phase = .exec ∧
      (running 0x01650000 1 [.idle] State.reset).port.head? ≠ some .reset := ⟨_, rfl, by decide⟩

theorem witness_FlagsChangeOnlyByTheirCommands :
    (∃ t, step (running 0x01650000 1 [] (holding 0 (BitVec.allOnes 256) 1)) = .next t ∧
      t.flagC ≠ (running 0x01650000 1 [] (holding 0 (BitVec.allOnes 256) 1)).flagC) ∧
    ∃ t, step (running 0x03050000 1 [] (holding 0 1 2)) = .next t ∧
      t.flagLT ≠ (running 0x03050000 1 [] (holding 0 1 2)).flagLT :=
  ⟨⟨_, rfl, by decide +kernel⟩, _, rfl, by decide +kernel⟩

theorem witness_ReadAfterCommandSeesItsResult :
    (withHost [.write 0x300 0x01650000, .read 0x060] (holding 0 5 7)).phase = .idle ∧
    (withHost [.write 0x300 0x01650000, .read 0x060] (holding 0 5 7)).port = [.write 0x300 0x01650000, .read 0x060] ∧
    (0x060 : BusAddr) ≠ 0x308 := by decide

/-- A step that stays in the run and a step that ends it. -/
theorem witness_LatencyDependsOnWordAndCode :
    (∃ u, step (running 0x01650000 1 [.idle] State.reset) = .next u ∧ u.phase = .exec) ∧
    ∃ u, step (running 0x01650000 1 [] State.reset) = .next u ∧ u.phase = .idle :=
  ⟨⟨_, rfl, by decide⟩, _, rfl, by decide +kernel⟩

/-- Two runs with different operands and the same code. -/
theorem witness_TraceDependsOnWordAndCode :
    ∃ t v, exec (.mod 3 1 0) (holding 23 1024 0) = .next t ∧ exec (.mod 3 1 0) (holding 5 0 1) = .next v ∧ t.err = v.err :=
  ⟨_, _, rfl, rfl, by decide⟩

theorem witness_ReductionIsExact : (1 : Narrow) ≠ 0 := by decide

theorem witness_ModexpTraceDependsOnBbits :
    ((holding 23 22 5).readN 1).toNat < ((holding 23 22 5).readN 0).toNat := by decide

theorem witness_ByteStringsAreBigEndian :
    (List.replicate 31 (0 : Byte) ++ [7]).length = 32 ∧
    beNat (List.replicate 31 (0 : Byte) ++ [7]) = (7 : Narrow).toNat := by decide +kernel

end Sys2Proof.Tests
end

section
/-! PROOF. The value conventions of spec 00_scope.md: limbs (R7), the mask form of the select (R9) and byte strings (R10). -/

namespace Sys2Proof.Machine

/-! ## The mask form (R9) -/

/-- The mask of a set bit is all ones, at every width. -/
theorem ofNat_two_pow_sub_one (w : Nat) : BitVec.ofNat w (2 ^ w - 1) = BitVec.allOnes w := by
  apply BitVec.eq_of_toNat_eq
  rw [BitVec.toNat_ofNat, BitVec.toNat_allOnes, Nat.mod_eq_of_lt (Nat.sub_one_lt (Nat.two_pow_pos w).ne')]

theorem ctSelect_true {w : Nat} (x y : BitVec w) : ctSelect true x y = x := by
  simp [ctSelect, ofNat_two_pow_sub_one]

theorem ctSelect_false {w : Nat} (x y : BitVec w) : ctSelect false x y = y := by
  simp [ctSelect]

/-- Settles O50, by the mask of either bit: all ones, or zero. -/
theorem maskFormSelects : Obligations.MaskFormSelects := by
  intro w c x y
  cases c with
  | false => exact ctSelect_false x y
  | true => exact ctSelect_true x y

/-! ## Limbs (R7) -/

theorem toNat_limb {n : Nat} (v : BitVec n) (j : Nat) : (limb v j).toNat = v.toNat / 2 ^ (64 * j) % 2 ^ 64 := by
  rw [limb, BitVec.extractLsb'_toNat, Nat.shiftRight_eq_div_pow]

/-- The lowest `m` limbs are the value modulo `2^(64m)`: one more limb is one more digit to the base `2^64`. -/
theorem sum_limbs_eq_mod {n : Nat} (v : BitVec n) (m : Nat) :
    ((List.range m).map (fun j => 2 ^ (64 * j) * (limb v j).toNat)).sum = v.toNat % 2 ^ (64 * m) := by
  induction m with
  | zero => simp [Nat.mod_one]
  | succ m ih =>
    rw [List.range_succ, List.map_append, List.sum_append, ih, Nat.mul_succ, Nat.pow_add, Nat.mod_mul]
    simp [toNat_limb]

/-- The limbs of a value whose width is a whole number of limbs make the value. -/
theorem toNat_eq_sum_limbs {m : Nat} (v : BitVec (64 * m)) :
    v.toNat = ((List.range m).map (fun j => 2 ^ (64 * j) * (limb v j).toNat)).sum := by
  rw [sum_limbs_eq_mod, Nat.mod_eq_of_lt v.isLt]

theorem toNat_natOfLimbs (l0 l1 l2 l3 : Limb) : (natOfLimbs l0 l1 l2 l3).toNat =
    l0.toNat + 2 ^ 64 * l1.toNat + 2 ^ 128 * l2.toNat + 2 ^ 192 * l3.toNat := by
  have h0 := l0.isLt
  have h1 := l1.isLt
  have h2 := l2.isLt
  have h3 := l3.isLt
  rw [natOfLimbs, BitVec.toNat_ofNat, Nat.mod_eq_of_lt]
  omega

/-- Settles O54: four limbs fill a narrow value and eight a wide one. -/
theorem limbsMakeTheValue : Obligations.LimbsMakeTheValue :=
  ⟨fun v j _ => toNat_limb v j, fun v j _ => toNat_limb v j, toNat_eq_sum_limbs (m := 4), toNat_eq_sum_limbs (m := 8),
    toNat_natOfLimbs⟩

/-! ## Byte strings (R10) -/

theorem beNat_eq_sum (bs : List Byte) :
    beNat bs = ((List.range bs.length).map (fun k => 256 ^ (bs.length - 1 - k) * (bs.getD k 0).toNat)).sum := by
  induction bs with
  | nil => rfl
  | cons b bs ih =>
    rw [beNat, ih, List.length_cons, List.range_succ_eq_map]
    simp [Function.comp_def, Nat.sub_sub, Nat.add_comm]

/-- `be_nat` is Mathlib's `Nat.ofDigits` of the reversed bytes, which holds the least significant digit first. -/
theorem beNat_eq_ofDigits (bs : List Byte) : beNat bs = Nat.ofDigits 256 (bs.map BitVec.toNat).reverse := by
  induction bs with
  | nil => rfl
  | cons b bs ih => simp [beNat, ih, Nat.ofDigits_append, Nat.add_comm]

/-- On one length `be_nat` is injective: digits below the base are unique. -/
theorem eq_of_beNat_eq {as bs : List Byte} (hlen : as.length = bs.length) (h : beNat as = beNat bs) : as = bs := by
  have hdigit (cs : List Byte) : ∀ d ∈ (cs.map BitVec.toNat).reverse, d < 256 := by
    simp only [List.mem_reverse, List.mem_map]
    rintro _ ⟨c, -, rfl⟩
    exact c.isLt
  rw [beNat_eq_ofDigits, beNat_eq_ofDigits] at h
  have hrev := Nat.ofDigits_inj_of_len_eq (by omega) (by simpa using hlen) (hdigit as) (hdigit bs) h
  exact List.map_injective_iff.2 (fun _ _ => BitVec.eq_of_toNat_eq) (List.reverse_injective hrev)

/-- The lowest `m` bytes of a value, the most significant first, are the value modulo `256^m`. -/
theorem beNat_lowBytes {n : Nat} (v : BitVec n) (m : Nat) :
    beNat ((List.range m).map (fun k => v.extractLsb' (8 * (m - 1 - k)) 8)) = v.toNat % 256 ^ m := by
  induction m with
  | zero => simp [beNat, Nat.mod_one]
  | succ m ih =>
    have hbyte : (v.extractLsb' (8 * m) 8).toNat = v.toNat / 256 ^ m % 256 := by
      rw [BitVec.extractLsb'_toNat, Nat.shiftRight_eq_div_pow, Nat.pow_mul]
    rw [Nat.pow_succ, Nat.mod_mul, ← ih, ← hbyte]
    simp [beNat, List.range_succ_eq_map, Function.comp_def, Nat.sub_sub, Nat.add_comm]

theorem beNat_beBytes32 (v : Narrow) : beNat (beBytes32 v) = v.toNat :=
  (beNat_lowBytes v 32).trans (Nat.mod_eq_of_lt v.isLt)

theorem getD_beBytes32 (v : Narrow) {k : Nat} (hk : k < 32) :
    (beBytes32 v).getD k 0 = v.extractLsb' (8 * (31 - k)) 8 := by
  simp [beBytes32, hk]

/-- Settles O55: the two functions are inverse on 32 bytes, so uniqueness is `eq_of_beNat_eq`. -/
theorem byteStringsAreBigEndian : Obligations.ByteStringsAreBigEndian := by
  refine ⟨beNat_eq_sum, rfl, fun v => ⟨length_beBytes32 v, fun k hk => getD_beBytes32 v hk, beNat_beBytes32 v, ?_⟩⟩
  intro bs hlen hval
  exact eq_of_beNat_eq (hlen.trans (length_beBytes32 v).symm) (hval.trans (beNat_beBytes32 v).symm)

end Sys2Proof.Machine
end


section
/-! PROOF. What a command does, as data: either the one write of its row of the table of spec 10_state.md R25, or the code it
fails with. It is computed from the locations that R25 lists as read, and `exec` is that write, or that failure, followed by
the end of the completion (R34). The frame (R25), the independence of everything else (R38) and of the hidden state (R32)
then speak of five forms of write and no longer of eleven commands. -/

namespace Sys2Proof.Machine

/-! ## The exponentiation controller writes each hidden variable before it reads it (R32, R197) -/

/-- The two states agree on the variables that the controller carries from one iteration to the next (R197). -/
def SameScan (h h' : Hidden) : Prop := h.mxAcc = h'.mxAcc ∧ h.mxI = h'.mxI

theorem sameScan_mxInit (n : Narrow) (k : Nat) (h h' : Hidden) : SameScan (mxInit n k h) (mxInit n k h') := ⟨rfl, rfl⟩

theorem SameScan.mxIteration {h h' : Hidden} (hs : SameScan h h') (a b n : Narrow) :
    SameScan (mxIteration a b n h) (mxIteration a b n h') := by
  obtain ⟨hacc, hi⟩ := hs
  simp [SameScan, Machine.mxIteration, mxChoose, mxMultiply, mxSquare, hacc, hi]

theorem SameScan.mxLoop {h h' : Hidden} (hs : SameScan h h') (a b n : Narrow) (k : Nat) :
    SameScan (mxLoop a b n k h) (mxLoop a b n k h') := by
  induction k generalizing h h' with
  | zero => exact hs
  | succ k ih => exact ih (hs.mxIteration a b n)

theorem mxRun_hidden_irrelevant (a b n : Narrow) (k : Nat) (h h' : Hidden) : mxRun a b n k h = mxRun a b n k h' :=
  ((sameScan_mxInit n k h h').mxLoop a b n k).1

/-! ## The write of a successful command (R25) -/

/-- What a command writes on success: the last column of the table of R25. -/
inductive Effect where
  /-- one narrow register -/
  | narrow (rd : RegField) (v : Narrow)
  /-- one narrow register and `FLAGS.C` -/
  | narrowCarry (rd : RegField) (v : Narrow) (c : Bool)
  /-- `FLAGS.LT` -/
  | less (b : Bool)
  /-- one wide register -/
  | wide (k : BitVec 2) (v : Wide)
  /-- a run of bytes of `BUF` -/
  | bytes (addr : Nat) (bs : List Byte)

/-- The state with the write done. -/
def Effect.apply (e : Effect) (s : State) : State :=
  match e with
  | .narrow rd v => s.writeN rd v
  | .narrowCarry rd v c => (s.writeN rd v).setC c
  | .less b => s.setLT b
  | .wide k v => s.writeW k v
  | .bytes addr bs => { s with buf := s.buf.putRun addr bs }

/-- The narrow register written. -/
def Effect.narrowDest : Effect → Option RegField
  | .narrow rd _ => some rd
  | .narrowCarry rd _ _ => some rd
  | _ => none

/-- The wide register written. -/
def Effect.wideDest : Effect → Option (BitVec 2)
  | .wide k _ => some k
  | _ => none

/-- `FLAGS.C` is written. -/
def Effect.writesC : Effect → Bool
  | .narrowCarry _ _ _ => true
  | _ => false

/-- `FLAGS.LT` is written. -/
def Effect.writesLT : Effect → Bool
  | .less _ => true
  | _ => false

/-- The byte of `BUF` at `a` is written. -/
def Effect.writesByte (e : Effect) (a : Nat) : Prop :=
  match e with
  | .bytes addr bs => addr ≤ a ∧ a < addr + bs.length
  | _ => False

/-- The bytes written lie inside `BUF` (R30). -/
def Effect.inside : Effect → Prop
  | .bytes addr bs => addr + bs.length ≤ 256
  | _ => True

/-- The write is one to the destinations that R25 lists for the command. -/
structure Effect.Fits (i : Instr) (e : Effect) : Prop where
  narrowDest : Machine.narrowDest i = e.narrowDest
  wideDest : Machine.wideDest i = e.wideDest
  writesC : Machine.writesC i = e.writesC
  writesLT : Machine.writesLT i = e.writesLT
  writesByte : ∀ a, Machine.writesByte i a ↔ e.writesByte a
  inside : e.inside

section Frame
variable (e : Effect) (s u : State)

theorem Effect.readN_apply_of_ne {r : RegField} (h : e.narrowDest ≠ some r) : (e.apply s).readN r = s.readN r := by
  cases e with
  | narrow rd v => exact s.readN_writeN_of_ne v (by rintro rfl; exact h rfl)
  | narrowCarry rd v c => exact s.readN_writeN_of_ne v (by rintro rfl; exact h rfl)
  | less | wide | bytes => rfl

theorem Effect.readN_apply_dest {r : RegField} (h : e.narrowDest = some r) :
    (e.apply s).readN r = (e.apply u).readN r := by
  cases e with
  | narrow rd v => cases h; simp [Effect.apply]
  | narrowCarry rd v c => cases h; simp [Effect.apply]
  | less | wide | bytes => cases h

theorem Effect.readW_apply_of_ne {k : BitVec 2} (h : e.wideDest ≠ some k) : (e.apply s).readW k = s.readW k := by
  cases e with
  | wide l v => exact s.readW_writeW_of_ne v (by rintro rfl; exact h rfl)
  | narrow | narrowCarry | less | bytes => rfl

theorem Effect.readW_apply_dest {k : BitVec 2} (h : e.wideDest = some k) :
    (e.apply s).readW k = (e.apply u).readW k := by
  cases e with
  | wide l v => cases h; simp [Effect.apply]
  | narrow | narrowCarry | less | bytes => cases h

theorem Effect.byteAt_apply_of_not {a : Nat} (h : ¬e.writesByte a) : (e.apply s).byteAt a = s.byteAt a := by
  cases e with
  | bytes addr bs => exact Memory.byteAt_putRun_outside bs s.buf addr a h
  | narrow | narrowCarry | less | wide => rfl

theorem Effect.byteAt_apply_dest {a : Nat} (h : e.writesByte a) : (e.apply s).byteAt a = (e.apply u).byteAt a := by
  cases e with
  | bytes addr bs =>
    obtain ⟨k, rfl⟩ := Nat.exists_eq_add_of_le h.1
    have hk : k < bs.length := Nat.add_lt_add_iff_left.1 h.2
    exact (Memory.byteAt_putRun_inside bs s.buf addr k hk).trans (Memory.byteAt_putRun_inside bs u.buf addr k hk).symm
  | narrow | narrowCarry | less | wide => cases h

theorem Effect.flagC_apply_of_not (h : e.writesC = false) : (e.apply s).flagC = s.flagC := by
  cases e with
  | narrowCarry => cases h
  | narrow | less | wide | bytes => rfl

theorem Effect.flagC_apply_dest (h : e.writesC = true) : (e.apply s).flagC = (e.apply u).flagC := by
  cases e with
  | narrowCarry => rfl
  | narrow | less | wide | bytes => cases h

theorem Effect.flagLT_apply_of_not (h : e.writesLT = false) : (e.apply s).flagLT = s.flagLT := by
  cases e with
  | less => cases h
  | narrow | narrowCarry | wide | bytes => rfl

theorem Effect.flagLT_apply_dest (h : e.writesLT = true) : (e.apply s).flagLT = (e.apply u).flagLT := by
  cases e with
  | less => rfl
  | narrow | narrowCarry | wide | bytes => cases h

/-- A write inside `BUF` keeps its canonical form. -/
theorem Effect.wf_buf_apply (hs : s.buf.wf) (he : e.inside) : (e.apply s).buf.wf := by
  cases e with
  | bytes addr bs => exact Memory.wf_putRun bs hs he
  | narrow | narrowCarry | less | wide => exact hs

end Frame

/-! ## What each command writes, or why it fails -/

/-- `MOD` and `MODW` (R172, R173). -/
def reduceResult {w : Nat} (rd : RegField) (a : BitVec w) (n : Narrow) : Except ErrCode Effect :=
  if n = 0 then .error .zeroModulus else .ok (.narrow rd (residue a n))

/-- Both rows of `MODEXP` (R192). The controller starts from no hidden state of the machine. -/
def modexpResult (rd : RegField) (a b n : Narrow) (bbits : Nat) : Except ErrCode Effect :=
  if n = 0 then .error .zeroModulus
  else if borrowLess a n = false then .error .baseRange
  else .ok (.narrow rd (mxRun a b n bbits Hidden.zero))

/-- `FROMBF` and `FROMBV` once the length is legal (R212, R214, R219); `byte k` is the `k`-th byte of the run. -/
def parseResult (rd : RegField) (addr len : Nat) (byte : Nat → Byte) : Except ErrCode Effect :=
  if addr + len ≤ 256 then .ok (.narrow rd (BitVec.ofNat 256 (beNat ((List.range len).map byte)))) else .error .bufRange

/-- What the command does: its write, or the code it fails with. -/
def commandResult (i : Instr) (s : State) : Except ErrCode Effect :=
  match i with
  | .add rd ra rb =>
    let sum := (rippleAdd (s.readN ra) (s.readN rb)).val
    .ok (.narrowCarry rd sum.2 sum.1)
  | .sub rd ra rb =>
    let diff := (rippleSub (s.readN ra) (s.readN rb)).val
    .ok (.narrowCarry rd diff.2 diff.1)
  | .lt ra rb => .ok (.less (borrowLess (s.readN ra) (s.readN rb)))
  | .mul wd ra rb =>
    match wideNumber wd with
    | some k => .ok (.wide k (product (s.readN ra) (s.readN rb)))
    | none => .error .illegal
  | .mod rd ra rn => reduceResult rd (s.readN ra) (s.readN rn)
  | .modw rd wa rn =>
    match wideNumber wa with
    | some k => reduceResult rd (s.readW k) (s.readN rn)
    | none => .error .illegal
  | .modexp rd ra rb rn bbits => modexpResult rd (s.readN ra) (s.readN rb) (s.readN rn) bbits.toNat
  | .modexp256 rd ra rb rn => modexpResult rd (s.readN ra) (s.readN rb) (s.readN rn) 256
  | .frombf rd addr len =>
    if len.toNat = 32 then parseResult rd addr.toNat 32 (fun k => s.byteAt (addr.toNat + k)) else .error .length
  | .frombv rd addr len =>
    if len.toNat ≤ 32 then parseResult rd addr.toNat len.toNat (fun k => s.byteAt (addr.toNat + k)) else .error .length
  | .tob rs addr =>
    if addr.toNat + 32 ≤ 256 then .ok (.bytes addr.toNat (beBytes32 (s.readN rs))) else .error .bufRange

/-- The end of the command (R34): its write and success, or its code alone. -/
def endCommand (r : Except ErrCode Effect) (s : State) : Result :=
  match r with
  | .ok e => (e.apply s).complete
  | .error c => s.raiseFail c

theorem reduceInto_eq_endCommand {w : Nat} (rd : RegField) (a : BitVec w) (n : Narrow) (s : State) :
    reduceInto rd a n s = endCommand (reduceResult rd a n) s := by
  unfold reduceInto reduceResult
  split <;> rfl

theorem modexpInto_eq_endCommand (rd ra rb rn : RegField) (k : Nat) (s : State) :
    modexpInto rd ra rb rn k s = endCommand (modexpResult rd (s.readN ra) (s.readN rb) (s.readN rn) k) s := by
  simp only [modexpInto, modexpResult, mxRun_hidden_irrelevant _ _ _ _ s.hidden Hidden.zero]
  split
  · rfl
  · split <;> rfl

theorem parseInto_eq_endCommand (rd : RegField) (addr len : Nat) (s : State) :
    parseInto rd addr len s = endCommand (parseResult rd addr len (fun k => s.byteAt (addr + k))) s := by
  unfold parseResult
  rcases parseInto_cases rd addr len s with ⟨hout, h⟩ | ⟨hin, h⟩
  · rw [h, if_neg (by omega)]; rfl
  · rw [h, if_pos hin]; rfl

/-- Every command is its write, or its failure, and the end of the completion (R34). -/
theorem exec_eq_endCommand (i : Instr) (s : State) : exec i s = endCommand (commandResult i s) s := by
  cases i with
  | add rd ra rb => rfl
  | sub rd ra rb => rfl
  | lt ra rb => rfl
  | mul wd ra rb =>
    simp only [exec, execMul, commandResult]
    cases wideNumber wd <;> rfl
  | mod rd ra rn => exact reduceInto_eq_endCommand rd (s.readN ra) (s.readN rn) s
  | modw rd wa rn =>
    simp only [exec, execModw, commandResult]
    cases wideNumber wa with
    | none => rfl
    | some k => exact reduceInto_eq_endCommand rd (s.readW k) (s.readN rn) s
  | modexp rd ra rb rn bbits => exact modexpInto_eq_endCommand rd ra rb rn bbits.toNat s
  | modexp256 rd ra rb rn => exact modexpInto_eq_endCommand rd ra rb rn 256 s
  | frombf rd addr len =>
    simp only [exec, execFrombf, commandResult]
    split
    · exact parseInto_eq_endCommand rd addr.toNat 32 s
    · rfl
  | frombv rd addr len =>
    simp only [exec, execFrombv, commandResult]
    split
    · exact parseInto_eq_endCommand rd addr.toNat len.toNat s
    · rfl
  | tob rs addr =>
    simp only [exec, commandResult]
    rcases execTob_cases rs addr s with ⟨hout, h⟩ | ⟨hin, h⟩
    · rw [h, if_neg (by omega)]; rfl
    · rw [h, if_pos hin]; rfl

/-! ## The write fits the command's row, and a failure has a code -/

/-- A write is one to the command's destinations, a failure has a non-zero code. -/
def ResultFits (i : Instr) (r : Except ErrCode Effect) : Prop :=
  match r with
  | .ok e => e.Fits i
  | .error c => c ≠ .ok

section
variable {i : Instr} {rd : RegField} (h : ∀ v, (Effect.narrow rd v).Fits i)
include h

theorem reduceResult_fits {w : Nat} (a : BitVec w) (n : Narrow) : ResultFits i (reduceResult rd a n) := by
  unfold reduceResult
  split
  · exact ErrCode.noConfusion
  · exact h _

theorem modexpResult_fits (a b n : Narrow) (k : Nat) : ResultFits i (modexpResult rd a b n k) := by
  unfold modexpResult
  split
  · exact ErrCode.noConfusion
  · split
    · exact ErrCode.noConfusion
    · exact h _

theorem parseResult_fits (addr len : Nat) (byte : Nat → Byte) : ResultFits i (parseResult rd addr len byte) := by
  unfold parseResult
  split
  · exact h _
  · exact ErrCode.noConfusion

end

theorem commandResult_fits (i : Instr) (s : State) : ResultFits i (commandResult i s) := by
  cases i with
  | add rd ra rb => exact ⟨rfl, rfl, rfl, rfl, fun _ => Iff.rfl, trivial⟩
  | sub rd ra rb => exact ⟨rfl, rfl, rfl, rfl, fun _ => Iff.rfl, trivial⟩
  | lt ra rb => exact ⟨rfl, rfl, rfl, rfl, fun _ => Iff.rfl, trivial⟩
  | mul wd ra rb =>
    simp only [commandResult]
    cases hk : wideNumber wd with
    | none => exact ErrCode.noConfusion
    | some k => exact ⟨rfl, hk, rfl, rfl, fun _ => Iff.rfl, trivial⟩
  | mod rd ra rn => exact reduceResult_fits (fun _ => ⟨rfl, rfl, rfl, rfl, fun _ => Iff.rfl, trivial⟩) _ _
  | modw rd wa rn =>
    simp only [commandResult]
    cases wideNumber wa with
    | none => exact ErrCode.noConfusion
    | some k => exact reduceResult_fits (fun _ => ⟨rfl, rfl, rfl, rfl, fun _ => Iff.rfl, trivial⟩) _ _
  | modexp rd ra rb rn bbits =>
    exact modexpResult_fits (fun _ => ⟨rfl, rfl, rfl, rfl, fun _ => Iff.rfl, trivial⟩) _ _ _ _
  | modexp256 rd ra rb rn =>
    exact modexpResult_fits (fun _ => ⟨rfl, rfl, rfl, rfl, fun _ => Iff.rfl, trivial⟩) _ _ _ _
  | frombf rd addr len =>
    simp only [commandResult]
    split
    · exact parseResult_fits (fun _ => ⟨rfl, rfl, rfl, rfl, fun _ => Iff.rfl, trivial⟩) _ _ _
    · exact ErrCode.noConfusion
  | frombv rd addr len =>
    simp only [commandResult]
    split
    · exact parseResult_fits (fun _ => ⟨rfl, rfl, rfl, rfl, fun _ => Iff.rfl, trivial⟩) _ _ _
    · exact ErrCode.noConfusion
  | tob rs addr =>
    simp only [commandResult]
    split
    · rename_i hin
      refine ⟨rfl, rfl, rfl, rfl, fun a => ?_, ?_⟩
      · simp [Effect.writesByte, writesByte]
      · simpa [Effect.inside] using hin
    · exact ErrCode.noConfusion

/-- What a command can do: write its destinations and succeed, or fail and write its code alone (R34, R40). -/
theorem exec_cases (i : Instr) (s : State) :
    (∃ e : Effect, e.Fits i ∧ exec i s = .next ((e.apply s).finish .ok)) ∨
    (∃ c, c ≠ .ok ∧ exec i s = .next (s.finish c)) := by
  rw [exec_eq_endCommand]
  have hfits := commandResult_fits i s
  cases hr : commandResult i s with
  | ok e => rw [hr] at hfits; exact .inl ⟨e, hfits, rfl⟩
  | error c => rw [hr] at hfits; exact .inr ⟨c, hfits, rfl⟩

/-- What the engine's `Complete` step can do: the same for the command of `cur_cmd`, and an illegal word fails (R110). -/
theorem engineComplete_cases (s : State) :
    (∃ (i : Instr) (e : Effect), decode s.curCmd = .ok i ∧ e.Fits i ∧
      engineComplete s = .next ((e.apply s).finish .ok)) ∨
    (∃ c, c ≠ .ok ∧ engineComplete s = .next (s.finish c)) := by
  unfold engineComplete
  cases hd : decode s.curCmd with
  | error x => exact .inr ⟨.illegal, ErrCode.noConfusion, rfl⟩
  | ok i =>
    rcases exec_cases i s with ⟨e, hfits, h⟩ | hfail
    · exact .inl ⟨i, e, rfl, hfits, h⟩
    · exact .inr hfail

/-! ## The laws of every command -/

/-- Settles O30: a write fits the command's row, and a failure writes no location at all. -/
theorem commandWritesOnlyItsDestinations : Obligations.CommandWritesOnlyItsDestinations := by
  intro i s t ht
  obtain ⟨u, c, hu, -, hsame⟩ := exec_endsCompletion i s
  have hkeeps : Completed t t.err ∧ CompletionKeeps s t := by
    obtain rfl : u.finish c = t := Host.Outcome.next.inj (hu.symm.trans ht)
    obtain ⟨-, -, hcmd, -, hreply, hport, hleft, hclock, -⟩ := hsame
    exact ⟨completed_finish u c, hcmd, hreply, hport, rfl, by simp [hclock, hleft]⟩
  refine ⟨hkeeps.1, hkeeps.2, ?_⟩
  rcases exec_cases i s with ⟨e, hfits, h⟩ | ⟨c', -, h⟩
  · obtain rfl := Host.Outcome.next.inj (h.symm.trans ht)
    exact ⟨fun r hr => e.readN_apply_of_ne s (hfits.narrowDest ▸ hr),
      fun k hk => e.readW_apply_of_ne s (hfits.wideDest ▸ hk),
      fun a ha => e.byteAt_apply_of_not s (mt (hfits.writesByte a).2 ha),
      fun hC => e.flagC_apply_of_not s (hfits.writesC ▸ hC), fun hLT => e.flagLT_apply_of_not s (hfits.writesLT ▸ hLT)⟩
  · obtain rfl := Host.Outcome.next.inj (h.symm.trans ht)
    exact ⟨fun _ _ => rfl, fun _ _ => rfl, fun _ _ => rfl, fun _ => rfl, fun _ => rfl⟩

/-- A parse depends on the bytes of its run alone. -/
theorem parseResult_congr (rd : RegField) (addr len : Nat) {f g : Nat → Byte} (h : ∀ k, k < len → f k = g k) :
    parseResult rd addr len f = parseResult rd addr len g := by
  have hmap : (List.range len).map f = (List.range len).map g :=
    List.map_congr_left fun k hk => h k (List.mem_range.1 hk)
  rw [parseResult, parseResult, hmap]

/-- What a command does is computed from the locations that R25 lists as read. -/
theorem commandResult_eq_of_agreeOnSources {i : Instr} {s u : State} (h : agreeOnSources i s u) :
    commandResult i s = commandResult i u := by
  cases i with
  | add rd ra rb => obtain ⟨ha, hb⟩ := h; simp only [commandResult, ha, hb]
  | sub rd ra rb => obtain ⟨ha, hb⟩ := h; simp only [commandResult, ha, hb]
  | lt ra rb => obtain ⟨ha, hb⟩ := h; simp only [commandResult, ha, hb]
  | mul wd ra rb => obtain ⟨ha, hb⟩ := h; simp only [commandResult, ha, hb]
  | mod rd ra rn => obtain ⟨ha, hn⟩ := h; simp only [commandResult, ha, hn]
  | modw rd wa rn =>
    obtain ⟨ha, hn⟩ := h
    simp only [commandResult, hn]
    cases hk : wideNumber wa with
    | none => rfl
    | some k => simp only [ha k hk]
  | modexp rd ra rb rn bbits => obtain ⟨ha, hb, hn⟩ := h; simp only [commandResult, ha, hb, hn]
  | modexp256 rd ra rb rn => obtain ⟨ha, hb, hn⟩ := h; simp only [commandResult, ha, hb, hn]
  | frombf rd addr len =>
    simp only [commandResult]
    split
    · rename_i hlen
      exact parseResult_congr rd addr.toNat 32 fun k hk => h k (hlen ▸ hk)
    · rfl
  | frombv rd addr len =>
    simp only [commandResult]
    split
    · exact parseResult_congr rd addr.toNat len.toNat h
    · rfl
  | tob rs addr => simp only [commandResult, show s.readN rs = u.readN rs from h]

theorem agreeOnDests_apply {i : Instr} {e : Effect} (hfits : e.Fits i) (s u : State) :
    agreeOnDests i (e.apply s) (e.apply u) :=
  ⟨fun _ h => e.readN_apply_dest s u (hfits.narrowDest ▸ h), fun _ h => e.readW_apply_dest s u (hfits.wideDest ▸ h),
    fun h => e.flagC_apply_dest s u (hfits.writesC ▸ h), fun h => e.flagLT_apply_dest s u (hfits.writesLT ▸ h),
    fun a h => e.byteAt_apply_dest s u ((hfits.writesByte a).1 h)⟩

/-- Settles O31: from equal sources a command does one and the same thing in both states. -/
theorem equalSourcesEqualResults : Obligations.EqualSourcesEqualResults := by
  intro i s u hagree
  have hfits := commandResult_fits i s
  rw [exec_eq_endCommand i s, exec_eq_endCommand i u, ← commandResult_eq_of_agreeOnSources hagree]
  cases hr : commandResult i s with
  | ok e => rw [hr] at hfits; exact ⟨_, _, rfl, rfl, rfl, fun _ => agreeOnDests_apply hfits s u⟩
  | error c => rw [hr] at hfits; exact ⟨_, _, rfl, rfl, rfl, fun hok => absurd hok hfits⟩

/-- No command lists the hidden state among its sources. -/
theorem agreeOnSources_hidden (i : Instr) (s : State) (h : Hidden) : agreeOnSources i s { s with hidden := h } := by
  cases i with
  | add | sub | lt | mul | mod => exact ⟨rfl, rfl⟩
  | modw => exact ⟨fun _ _ => rfl, rfl⟩
  | modexp | modexp256 => exact ⟨rfl, rfl, rfl⟩
  | frombf | frombv => exact fun _ _ => rfl
  | tob => rfl

/-- Settles O32: the hidden state is no source, so the same write, or the same failure, follows. -/
theorem hiddenStateNeverMatters : Obligations.HiddenStateNeverMatters := by
  refine ⟨fun i s h => ?_, mxRun_hidden_irrelevant⟩
  rw [exec_eq_endCommand i s, exec_eq_endCommand i { s with hidden := h },
    ← commandResult_eq_of_agreeOnSources (agreeOnSources_hidden i s h)]
  cases commandResult i s with
  | ok e =>
    refine ⟨_, _, rfl, rfl, ?_⟩
    cases e <;> exact ⟨rfl, rfl, rfl, rfl, rfl, rfl⟩
  | error c => exact ⟨_, _, rfl, rfl, rfl, rfl, rfl, rfl, rfl, rfl⟩

end Sys2Proof.Machine
end

section
/-! PROOF. What a step keeps: the flags and the error code outside completions and reset (spec 10_state.md R27, R28, R40), the
canonical form of `BUF` (R30), the start of a command and the hold while it runs (R33, R35), and the reset values (R41). -/

namespace Sys2Proof.Machine

/-! ## Host accesses -/

/-- What an accepted write can do (R69): nothing, one register, eight bytes of `BUF`, or the start of a command. -/
theorem hostWrite_cases (s : State) (addr : BusAddr) (d : Limb) :
    (hostWrite s addr d).1 = s ∨ (∃ i v, (hostWrite s addr d).1 = s.writeN i v) ∨
    (∃ k v, (hostWrite s addr d).1 = s.writeW k v) ∨
    (∃ m, m < 32 ∧ (hostWrite s addr d).1 = { s with buf := s.buf.putRun (8 * m) (windowBytes d) }) ∨
    (hostWrite s addr d).1 = acceptCommand (wordOfBus d) s := by
  unfold hostWrite
  split_ifs
  · exact .inl rfl
  · exact .inr (.inl ⟨_, _, rfl⟩)
  · exact .inr (.inr (.inl ⟨_, _, rfl⟩))
  · exact .inr (.inr (.inr (.inl ⟨_, (addr.extractLsb' 3 5).isLt, rfl⟩)))
  · exact .inr (.inr (.inr (.inr rfl)))
  · exact .inl rfl

/-- No host write touches the flags or the error code (R27, R28). -/
theorem hostWrite_keepsFlagsAndErr (s : State) (addr : BusAddr) (d : Limb) :
    SameFlags s (hostWrite s addr d).1 ∧ (hostWrite s addr d).1.err = s.err := by
  rcases hostWrite_cases s addr d with h | ⟨i, v, h⟩ | ⟨k, v, h⟩ | ⟨m, -, h⟩ | h <;> rw [h] <;>
    exact ⟨⟨rfl, rfl⟩, rfl⟩

theorem hostWrite_keepsInv {s : State} (hs : s.Inv) (addr : BusAddr) (d : Limb) : (hostWrite s addr d).1.Inv := by
  obtain ⟨hbuf, hleft⟩ := hs
  rcases hostWrite_cases s addr d with h | ⟨i, v, h⟩ | ⟨k, v, h⟩ | ⟨m, hm, h⟩ | h <;> rw [h]
  · exact ⟨hbuf, hleft⟩
  · exact ⟨hbuf, hleft⟩
  · exact ⟨hbuf, hleft⟩
  · exact ⟨Memory.wf_putRun _ hbuf (by rw [length_windowBytes]; omega), hleft⟩
  · exact ⟨hbuf, Phase.noConfusion⟩

/-- A write to `CMD` starts the command in the low 32 bits of the data (R33). -/
theorem hostWrite_cmd (s : State) (d : Limb) : hostWrite s 0x300 d = (acceptCommand (wordOfBus d) s, false) := rfl

/-- A read of `STATUS` answers without a bus error (R68). -/
theorem hostRead_status (s : State) : hostRead s 0x308 = (s.statusWord, false) := rfl

theorem toNat_wordOfBus (d : Limb) : (wordOfBus d).toNat = d.toNat % 2 ^ 32 := by
  simp [wordOfBus, BitVec.extractLsb'_toNat]

/-- Codes 6 and 7 never occur (R241). -/
theorem errBits_le (c : ErrCode) : (errBits c).toNat ≤ 5 := by
  cases c <;> decide

/-- `BUSY` in bit 0 and `ERR` in bits 6:4 (R28). -/
theorem toNat_statusWord (s : State) : s.statusWord.toNat = s.busy.toNat + 16 * (errBits s.err).toNat := by
  have hbusy := s.busy.toNat_le
  have herr := errBits_le s.err
  rw [State.statusWord, BitVec.toNat_ofNat, Nat.mod_eq_of_lt (by omega)]

/-! ## What a step keeps outside reset and completion -/

/-- While idle, no event but a reset touches the flags or the error code. -/
theorem idleStep_keepsFlagsAndErr (s : State) {e : HostEvent} (he : e ≠ .reset) :
    SameFlags s (idleStep e s) ∧ (idleStep e s).err = s.err := by
  cases e with
  | reset => exact absurd rfl he
  | idle | await | read => exact ⟨⟨rfl, rfl⟩, rfl⟩
  | write addr d => exact hostWrite_keepsFlagsAndErr s addr d

/-- While a command runs, an event before its completion that does not reset the block changes nothing of it (R35). -/
theorem busyStep_sameBlock {s t : State} {e : HostEvent} (h : busyStep e s = some t) (he : e ≠ .reset) :
    SameBlock s t := by
  rcases busyStep_cases h with ⟨rfl, -⟩ | ⟨-, -, rfl⟩ | ⟨-, -, rfl⟩
  · exact absurd rfl he
  · exact ⟨fun _ => rfl, fun _ => rfl, fun _ => rfl, ⟨rfl, rfl⟩, rfl, rfl, rfl, rfl⟩
  · exact ⟨fun _ => rfl, fun _ => rfl, fun _ => rfl, ⟨rfl, rfl⟩, rfl, rfl, rfl, rfl⟩

/-- A step that is no reset leaves the flags and the error code, or it is a completion. -/
theorem step_keepsFlagsAndErr_or_completes {s t : State} (h : step s = .next t) (hrst : s.port.head? ≠ some .reset) :
    (SameFlags s t ∧ t.err = s.err) ∨ (s.phase = .exec ∧ engineComplete s = .next t) := by
  rcases step_cases s with ⟨-, -, hs⟩ | ⟨e, rest, -, hq, hs⟩ | ⟨e, rest, u, -, hq, hb, hs⟩ | ⟨hp, -, hs⟩
  · cases hs.symm.trans h
    exact .inl ⟨⟨rfl, rfl⟩, rfl⟩
  · cases hs.symm.trans h
    exact .inl (idleStep_keepsFlagsAndErr { s with port := rest } fun he => hrst (by simp [hq, he]))
  · cases hs.symm.trans h
    obtain ⟨-, -, -, hflags, herr, -⟩ := busyStep_sameBlock hb fun he => hrst (by simp [hq, he])
    exact .inl ⟨hflags, herr⟩
  · exact .inr ⟨hp, hs.symm.trans h⟩

/-- A step after which the command still runs changes nothing of the block (R35). -/
theorem step_sameBlock_of_exec {s t : State} (hp : s.phase = .exec) (h : step s = .next t) (ht : t.phase = .exec) :
    SameBlock s t := by
  rcases step_cases s with ⟨hi, -, -⟩ | ⟨e, rest, hi, -, -⟩ | ⟨e, rest, u, -, -, hb, hs⟩ | ⟨-, -, hs⟩
  · exact nomatch hp.symm.trans hi
  · exact nomatch hp.symm.trans hi
  · cases hs.symm.trans h
    refine busyStep_sameBlock (s := { s with port := rest }) hb ?_
    rintro rfl
    cases hb
    exact nomatch ht
  · obtain ⟨-, -, -, hidle, -⟩ := engineComplete_keeps (hs.symm.trans h)
    exact nomatch ht.symm.trans hidle

/-- Settles O29: a failing completion is `finish` alone, and no event before it changes the block. -/
theorem failureWritesNothing : Obligations.FailureWritesNothing := by
  refine ⟨fun s t h hfail => ?_, fun s t hp h ht => ?_⟩
  · rcases engineComplete_cases s with ⟨i, e, -, -, hs⟩ | ⟨c, -, hs⟩
    · cases hs.symm.trans h
      exact absurd rfl hfail
    · cases hs.symm.trans h
      exact wroteOnlyErr_finish s c
  · obtain ⟨hnarrow, hwide, hbuf, hflags, herr, -, hcmd, -⟩ := step_sameBlock_of_exec hp h ht
    exact ⟨hnarrow, hwide, hbuf, hflags, herr, hcmd⟩

/-- Settles O41: a completion starts from `EXEC` and ends in `IDLE`. -/
theorem errWrittenOnlyAtCompletion : Obligations.ErrWrittenOnlyAtCompletion := by
  refine ⟨fun s t h hrst hphase => ?_, errBits_le⟩
  rcases step_keepsFlagsAndErr_or_completes h hrst with ⟨-, herr⟩ | ⟨hp, hc⟩
  · exact herr
  · obtain ⟨-, -, -, hidle, -⟩ := engineComplete_keeps hc
    rcases hphase with hi | he
    · exact nomatch hp.symm.trans hi
    · exact nomatch he.symm.trans hidle

/-- The commands that write `FLAGS.C` (R27). -/
theorem eq_add_or_sub_of_writesC {i : Instr} (h : writesC i = true) :
    ∃ rd ra rb, i = .add rd ra rb ∨ i = .sub rd ra rb := by
  cases i with
  | add rd ra rb => exact ⟨rd, ra, rb, .inl rfl⟩
  | sub rd ra rb => exact ⟨rd, ra, rb, .inr rfl⟩
  | lt | mul | mod | modw | modexp | modexp256 | frombf | frombv | tob => cases h

/-- The command that writes `FLAGS.LT` (R27). -/
theorem eq_lt_of_writesLT {i : Instr} (h : writesLT i = true) : ∃ ra rb, i = .lt ra rb := by
  cases i with
  | lt ra rb => exact ⟨ra, rb, rfl⟩
  | add | sub | mul | mod | modw | modexp | modexp256 | frombf | frombv | tob => cases h

/-- Settles O42: a flag that changed was written by a completion, and the command's row names it. -/
theorem flagsChangeOnlyByTheirCommands : Obligations.FlagsChangeOnlyByTheirCommands := by
  intro s t h hrst
  rcases step_keepsFlagsAndErr_or_completes h hrst with ⟨⟨hC, hLT⟩, -⟩ | ⟨hp, hc⟩
  · exact ⟨fun hne => absurd hC hne, fun hne => absurd hLT hne⟩
  rcases engineComplete_cases s with ⟨i, e, hd, hfits, hs⟩ | ⟨c, -, hs⟩
  · cases hs.symm.trans hc
    refine ⟨fun hne => ⟨hp, rfl, rfl, ?_⟩, fun hne => ⟨hp, rfl, rfl, ?_⟩⟩
    · have hw : writesC i = true := by
        rw [hfits.writesC]
        exact Bool.eq_true_of_not_eq_false fun hw => hne (e.flagC_apply_of_not s hw)
      obtain ⟨rd, ra, rb, rfl | rfl⟩ := eq_add_or_sub_of_writesC hw
      · exact ⟨rd, ra, rb, .inl hd⟩
      · exact ⟨rd, ra, rb, .inr hd⟩
    · have hw : writesLT i = true := by
        rw [hfits.writesLT]
        exact Bool.eq_true_of_not_eq_false fun hw => hne (e.flagLT_apply_of_not s hw)
      obtain ⟨ra, rb, rfl⟩ := eq_lt_of_writesLT hw
      exact ⟨ra, rb, hd⟩
  · cases hs.symm.trans hc
    exact ⟨fun hne => absurd rfl hne, fun hne => absurd rfl hne⟩

/-! ## The invariant -/

theorem resetCycle_inv (s : State) : (resetCycle s).Inv := ⟨Memory.wf_nil, fun _ => rfl⟩

theorem idleStep_keepsInv {s : State} (hs : s.Inv) (e : HostEvent) : (idleStep e s).Inv := by
  cases e with
  | reset => exact resetCycle_inv s
  | idle | await | read => exact hs
  | write addr d => exact hostWrite_keepsInv hs addr d

theorem busyStep_keepsInv {s t : State} {e : HostEvent} (hs : s.Inv) (h : busyStep e s = some t) : t.Inv := by
  obtain ⟨hbuf, hleft⟩ := hs
  rcases busyStep_cases h with ⟨-, rfl⟩ | ⟨-, -, rfl⟩ | ⟨-, -, rfl⟩
  · exact resetCycle_inv s
  · exact ⟨hbuf, fun hi => by simp [hleft hi]⟩
  · exact ⟨hbuf, fun hi => by simp [hleft hi]⟩

/-- A completion writes inside `BUF` alone and leaves no busy cycle. -/
theorem engineComplete_keepsInv {s t : State} (hs : s.Inv) (h : engineComplete s = .next t) : t.Inv := by
  obtain ⟨hbuf, -⟩ := hs
  rcases engineComplete_cases s with ⟨i, e, -, hfits, hc⟩ | ⟨c, -, hc⟩
  · cases hc.symm.trans h
    exact ⟨e.wf_buf_apply s hbuf hfits.inside, fun _ => rfl⟩
  · cases hc.symm.trans h
    exact ⟨hbuf, fun _ => rfl⟩

/-- Settles O9, by what a step can be: an event while idle, an event while a command runs, or a completion. -/
theorem stepKeepsInv : Obligations.StepKeepsInv := by
  intro s t hs h
  rcases step_cases s with ⟨-, -, hstep⟩ | ⟨e, rest, -, -, hstep⟩ | ⟨e, rest, u, -, -, hb, hstep⟩ | ⟨-, -, hstep⟩
  · cases hstep.symm.trans h
    exact hs
  · cases hstep.symm.trans h
    exact idleStep_keepsInv (s := { s with port := rest }) hs e
  · cases hstep.symm.trans h
    exact busyStep_keepsInv (s := { s with port := rest }) hs hb
  · exact engineComplete_keepsInv hs (hstep.symm.trans h)

/-! ## Reset (R41) -/

/-- Settles O10. -/
theorem resetHasInv : Obligations.ResetHasInv := ⟨Memory.wf_nil, fun _ => rfl⟩

theorem NarrowFile.get_zero (i : RegField) : NarrowFile.zero.get i = 0 := by
  unfold NarrowFile.get
  split <;> rfl

theorem WideFile.get_zero (k : BitVec 2) : WideFile.zero.get k = 0 := by
  unfold WideFile.get
  split <;> rfl

/-- Settles O33: the two register files by `get_zero`, every other value as the reset state states it. -/
theorem resetValues : Obligations.ResetValues :=
  ⟨NarrowFile.get_zero, WideFile.get_zero, fun _ => rfl, rfl, rfl, rfl, rfl, rfl, rfl, rfl, rfl, rfl, rfl, rfl, rfl, rfl, rfl,
    rfl, rfl⟩

/-! ## The engine's turn (R33 to R35) -/

/-- When it is the engine's turn the step is the `Complete` step (R34). -/
theorem step_eq_engineComplete {s : State} (h : engineTurn s) : step s = engineComplete s := by
  obtain ⟨hp, hturn⟩ := h
  rcases step_cases s with ⟨hi, -, -⟩ | ⟨e, rest, hi, -, -⟩ | ⟨e, rest, u, -, hq, hb, -⟩ | ⟨-, -, hs⟩
  · exact nomatch hp.symm.trans hi
  · exact nomatch hp.symm.trans hi
  · rw [hq] at hturn
    rcases busyStep_cases hb with ⟨rfl, -⟩ | ⟨rfl, hleft, -⟩ | ⟨rfl, hleft, -⟩
    · exact hturn.elim
    · exact absurd hturn hleft.ne'
    · exact absurd (hturn rfl) hleft.ne'
  · exact hs

theorem engineComplete_of_decode {s : State} {i : Instr} (h : decode s.curCmd = .ok i) : engineComplete s = exec i s := by
  rw [engineComplete, h]

/-- Settles O6. -/
theorem stepRunsDecodedInstruction : Obligations.StepRunsDecodedInstruction :=
  fun _ _ hturn hd => (step_eq_engineComplete hturn).trans (engineComplete_of_decode hd)

/-- Every `Complete` step answers a next state, with the queue and the last reply as they were (R34). -/
theorem engineComplete_next (s : State) :
    ∃ t, engineComplete s = .next t ∧ t.port = s.port ∧ t.reply = s.reply ∧ t.phase = .idle := by
  obtain ⟨u, c, h, -⟩ := engineComplete_endsCompletion s
  obtain ⟨hport, hreply, -, hidle, -⟩ := engineComplete_keeps h
  exact ⟨_, h, hport, hreply, hidle⟩

theorem hReady_write_of_exec {s : State} (hp : s.phase = .exec) (addr : BusAddr) (d : Limb) :
    s.hReady (.write addr d) = false := by
  simp [State.hReady, State.busy, hp]

theorem hReady_read_of_exec {s : State} (hp : s.phase = .exec) {addr : BusAddr} (ha : addr ≠ 0x308) :
    s.hReady (.read addr) = false := by
  simpa [State.hReady, State.busy, hp] using ha

/-- While a command runs a presented write is held, and the engine's turn comes (R35). -/
theorem engineTurn_write {s : State} {addr : BusAddr} {d : Limb} {rest : List HostEvent} (hp : s.phase = .exec)
    (hq : s.port = .write addr d :: rest) : engineTurn s := by
  refine ⟨hp, ?_⟩
  rw [hq]
  trivial

/-- While a command runs a presented read of another address than that of `STATUS` is held (R35). -/
theorem engineTurn_read {s : State} {addr : BusAddr} {rest : List HostEvent} (hp : s.phase = .exec)
    (hq : s.port = .read addr :: rest) (ha : addr ≠ 0x308) : engineTurn s := by
  refine ⟨hp, ?_⟩
  rw [hq]
  exact fun h => absurd h ha

/-- Settles O37: while idle the step is `acceptCommand`; while a command runs it is the completion. -/
theorem acceptanceStartsCommand : Obligations.AcceptanceStartsCommand := by
  intro s d rest hq
  refine ⟨fun hp => ⟨_, step_idle hp hq, ?_⟩, fun hp => ⟨hReady_write_of_exec hp _ _, ?_⟩⟩
  · simp only [idleStep, acceptWrite, hostWrite_cmd]
    exact ⟨toNat_wordOfBus d, rfl, rfl, rfl, ⟨rfl, rfl⟩, fun _ => rfl, fun _ => rfl, fun _ => rfl, rfl, rfl⟩
  · obtain ⟨t, hc, hport, hreply, -⟩ := engineComplete_next s
    exact ⟨t, (step_eq_engineComplete (engineTurn_write hp hq)).trans hc, hport, hreply⟩

/-- A read of `STATUS` in a cycle before the completion is accepted and changes nothing of the block (R35). -/
theorem step_status_while_busy {s : State} {rest : List HostEvent} (hp : s.phase = .exec)
    (hq : s.port = .read 0x308 :: rest) (hleft : 0 < s.left) :
    step s = .next { acceptRead 0x308 { s with port := rest } with left := s.left - 1 } := by
  rw [step_exec hp hq, busyStep, if_pos rfl, if_pos hleft]

/-- Settles O38: every held transaction makes it the engine's turn; a read of `STATUS` is a busy step of its own. -/
theorem onlyStatusReadsWhileBusy : Obligations.OnlyStatusReadsWhileBusy := by
  refine ⟨fun s e rest hp hq he => ?_, fun s rest hp hq hleft => ⟨s.statusWord, _, step_status_while_busy hp hq hleft, ?_⟩⟩
  · have hheld : s.hReady e = false ∧ engineTurn s := by
      rcases he with ⟨addr, rfl, ha⟩ | ⟨addr, d, rfl⟩
      · exact ⟨hReady_read_of_exec hp ha, engineTurn_read hp hq ha⟩
      · exact ⟨hReady_write_of_exec hp addr d, engineTurn_write hp hq⟩
    obtain ⟨hready, hturn⟩ := hheld
    obtain ⟨t, hc, ht⟩ := engineComplete_next s
    exact ⟨hready, step_eq_engineComplete hturn, t, (step_eq_engineComplete hturn).trans hc, ht⟩
  · refine ⟨?_, rfl, ⟨fun _ => rfl, fun _ => rfl, fun _ => rfl, ⟨rfl, rfl⟩, rfl, rfl, rfl, rfl⟩, ?_⟩
    · simp only [acceptRead_reply, hostRead_status]; rfl
    · rw [toNat_statusWord, State.busy, hp]; rfl

end Sys2Proof.Machine
end

section
/-! PROOF. A placed command is what the next step runs (spec 10_state.md R33, R34): the fields of an encoded word (30_encoding.md
R101, R114), and with them that the decoder gives an encoded command back. -/

namespace Sys2Proof.Machine

/-- A field of a word is a digit of its number. -/
theorem extractLsb'_eq_of_toNat {n s l : Nat} {w : BitVec n} {v : BitVec l} (h : w.toNat / 2 ^ s % 2 ^ l = v.toNat) :
    w.extractLsb' s l = v := by
  apply BitVec.eq_of_toNat_eq
  rw [BitVec.extractLsb'_toNat, Nat.shiftRight_eq_div_pow, h]

/-! ## The fields of a register-format word (R101, R114) -/

section RegisterWord
variable {op : Nat} (fd fa fb fn : RegField) {bbits : Nat} (ho : op < 256) (hb : bbits < 512)
include ho

theorem toNat_registerWord (hb : bbits < 512) : (registerWord op fd fa fb fn bbits).toNat =
    2 ^ 24 * op + 2 ^ 21 * fd.toNat + 2 ^ 18 * fa.toNat + 2 ^ 15 * fb.toNat + 2 ^ 12 * fn.toNat + bbits := by
  rw [registerWord, BitVec.toNat_ofNat, Nat.mod_eq_of_lt]
  omega

/-- The bits that formats RN and WN mark 0 (R106). -/
@[simp] theorem lowBits12_registerWord : (registerWord op fd fa fb fn 0).extractLsb' 0 12 = 0#12 :=
  extractLsb'_eq_of_toNat (by rw [toNat_registerWord fd fa fb fn ho (by omega)]; simp only [BitVec.toNat_ofNat]; omega)

/-- The bits that formats RRR, C2 and MW mark 0 (R106). -/
@[simp] theorem lowBits15_registerWord : (registerWord op fd fa fb 0#3 0).extractLsb' 0 15 = 0#15 :=
  extractLsb'_eq_of_toNat (by rw [toNat_registerWord fd fa fb 0#3 ho (by omega)]; simp only [BitVec.toNat_ofNat]; omega)

include hb

@[simp] theorem fdField_registerWord : fdField (registerWord op fd fa fb fn bbits) = fd :=
  extractLsb'_eq_of_toNat (by rw [toNat_registerWord fd fa fb fn ho hb]; omega)

@[simp] theorem faField_registerWord : faField (registerWord op fd fa fb fn bbits) = fa :=
  extractLsb'_eq_of_toNat (by rw [toNat_registerWord fd fa fb fn ho hb]; omega)

@[simp] theorem fbField_registerWord : fbField (registerWord op fd fa fb fn bbits) = fb :=
  extractLsb'_eq_of_toNat (by rw [toNat_registerWord fd fa fb fn ho hb]; omega)

@[simp] theorem fnField_registerWord : fnField (registerWord op fd fa fb fn bbits) = fn :=
  extractLsb'_eq_of_toNat (by rw [toNat_registerWord fd fa fb fn ho hb]; omega)

@[simp] theorem bbitsField_registerWord : bbitsField (registerWord op fd fa fb fn bbits) = BitVec.ofNat 9 bbits :=
  extractLsb'_eq_of_toNat (by rw [toNat_registerWord fd fa fb fn ho hb, BitVec.toNat_ofNat]; omega)

@[simp] theorem addrField_registerWord : addrField (registerWord op fd fa fb fn bbits) = BitVec.ofNat 8 bbits :=
  extractLsb'_eq_of_toNat (by rw [toNat_registerWord fd fa fb fn ho hb, BitVec.toNat_ofNat]; omega)

/-- The bits that format E marks 0 (R106). -/
@[simp] theorem bits9_registerWord : (registerWord op fd fa fb fn bbits).extractLsb' 9 3 = 0#3 :=
  extractLsb'_eq_of_toNat (by rw [toNat_registerWord fd fa fb fn ho hb]; simp only [BitVec.toNat_ofNat]; omega)

end RegisterWord

/-! ## The fields of a buffer-format word (R101, R114) -/

section BufferWord
variable {op : Nat} (fd : RegField) (len : BitVec 6) (addr : BitVec 8) (ho : op < 256)
include ho

theorem toNat_bufferWord : (bufferWord op fd len addr).toNat =
    2 ^ 24 * op + 2 ^ 21 * fd.toNat + 2 ^ 8 * len.toNat + addr.toNat := by
  rw [bufferWord, BitVec.toNat_ofNat, Nat.mod_eq_of_lt]
  omega

@[simp] theorem fdField_bufferWord : fdField (bufferWord op fd len addr) = fd :=
  extractLsb'_eq_of_toNat (by rw [toNat_bufferWord fd len addr ho]; omega)

@[simp] theorem lenField_bufferWord : lenField (bufferWord op fd len addr) = len :=
  extractLsb'_eq_of_toNat (by rw [toNat_bufferWord fd len addr ho]; omega)

@[simp] theorem addrField_bufferWord : addrField (bufferWord op fd len addr) = addr :=
  extractLsb'_eq_of_toNat (by rw [toNat_bufferWord fd len addr ho]; omega)

/-- The bits that format BL marks 0 (R106). -/
@[simp] theorem bits14_bufferWord : (bufferWord op fd len addr).extractLsb' 14 7 = 0#7 :=
  extractLsb'_eq_of_toNat (by rw [toNat_bufferWord fd len addr ho]; simp only [BitVec.toNat_ofNat]; omega)

/-- The bits that format BS marks 0 (R106). -/
@[simp] theorem bits8_bufferWord : (bufferWord op fd 0#6 addr).extractLsb' 8 13 = 0#13 :=
  extractLsb'_eq_of_toNat (by rw [toNat_bufferWord fd 0#6 addr ho]; simp only [BitVec.toNat_ofNat]; omega)

end BufferWord

/-! ## Decoding an encoded command (R114) -/

open Laws.OpcodeByte (opField_registerWord opField_bufferWord)

/-- The decoder gives an encoded legal command back (R114). -/
theorem decode_encode {i : Instr} (h : i.wellFormed = true) : decode (encode i) = .ok i := by
  cases i with
  | add | sub | lt | mod => simp [encode, decode, opField_registerWord]
  | mul wd ra rb =>
    have hw : wideField wd = true := h
    simp [encode, decode, opField_registerWord, hw]
  | modw rd wa rn =>
    have hw : wideField wa = true := h
    simp [encode, decode, opField_registerWord, hw]
  | modexp rd ra rb rn bbits =>
    have hb : bbits.toNat < 256 := bbits.isLt
    have hb' : bbits.toNat < 512 := by omega
    simp [encode, decode, opField_registerWord, hb, hb', Nat.mod_eq_of_lt hb']
  | modexp256 => simp [encode, decode, opField_registerWord]
  | frombf | frombv | tob => simp [encode, decode, opField_bufferWord]

/-! ## Placing a command -/

/-- Nothing the environment does comes before the completion of a placed word. -/
theorem engineTurn_withFetchWord (s : State) (n w : Nat) : engineTurn (s.withFetchWord n w) := ⟨rfl, trivial⟩

/-- A word placed as its number is the word in `cur_cmd`. -/
theorem curCmd_withFetchWord (s : State) (w : CmdWord) : (s.withFetchWord 32 w.toNat).curCmd = w := by
  rw [State.withFetchWord_curCmd, Nat.mod_eq_of_lt w.isLt, BitVec.ofNat_toNat, BitVec.setWidth_eq]

/-- Settles O7: the placed word decodes to its command, and it is the engine's turn. -/
theorem fetchWordRunsNext : Obligations.FetchWordRunsNext := by
  intro s i hi
  have hd : decode (s.withFetchWord 32 (encode i).toNat).curCmd = .ok i := by
    rw [curCmd_withFetchWord, decode_encode hi]
  exact ⟨stepRunsDecodedInstruction _ i (engineTurn_withFetchWord s _ _) hd, fun _ => rfl, fun _ => rfl, fun _ => rfl,
    ⟨rfl, rfl⟩, rfl⟩

end Sys2Proof.Machine
end


section
/-! PROOF. The bus map (spec 20_memory.md R62 to R69): which location an address names, what an accepted read of it answers and
what an accepted write of it does, and with them that a transaction is accepted exactly when `h_ready` is 1. Runs of bytes that
leave `BUF` (R76, R219). -/

namespace Sys2Proof.Machine

/-! ## The location an address names (R62 to R64) -/

/-- The fields of the address of limb `j` of `r[i]` (R62). -/
theorem narrowAddr_fields {addr : BusAddr} {i : RegField} {j : Nat} (hj : j < 4) (h : addr.toNat = 32 * i.toNat + 8 * j) :
    addr.extractLsb' 0 3 = 0 ∧ addr.toNat < 0x100 ∧ addr.extractLsb' 5 3 = i ∧ (addr.extractLsb' 3 2).toNat = j := by
  have hi := i.isLt
  refine ⟨(aligned_iff addr).2 (by omega), by omega, extractLsb'_eq_of_toNat (by omega), ?_⟩
  rw [BitVec.extractLsb'_toNat, Nat.shiftRight_eq_div_pow]
  omega

/-- The fields of the address of limb `j` of `w[k]` (R63). -/
theorem wideAddr_fields {addr : BusAddr} {k : BitVec 2} {j : Nat} (hj : j < 8)
    (h : addr.toNat = 0x100 + 64 * k.toNat + 8 * j) :
    addr.extractLsb' 0 3 = 0 ∧ ¬addr.toNat < 0x100 ∧ addr.toNat < 0x200 ∧ addr.extractLsb' 6 2 = k ∧
      (addr.extractLsb' 3 3).toNat = j := by
  have hk := k.isLt
  refine ⟨(aligned_iff addr).2 (by omega), by omega, by omega, extractLsb'_eq_of_toNat (by omega), ?_⟩
  rw [BitVec.extractLsb'_toNat, Nat.shiftRight_eq_div_pow]
  omega

/-- The fields of the address of doubleword `m` of the `BUF` window (R64). -/
theorem windowAddr_fields {addr : BusAddr} {m : Nat} (hm : m < 32) (h : addr.toNat = 0x200 + 8 * m) :
    addr.extractLsb' 0 3 = 0 ∧ ¬addr.toNat < 0x100 ∧ ¬addr.toNat < 0x200 ∧ addr.toNat < 0x300 ∧
      (addr.extractLsb' 3 5).toNat = m := by
  refine ⟨(aligned_iff addr).2 (by omega), by omega, by omega, by omega, ?_⟩
  rw [BitVec.extractLsb'_toNat, Nat.shiftRight_eq_div_pow]
  omega

theorem misaligned_of_mod_ne {addr : BusAddr} (h : addr.toNat % 8 ≠ 0) : addr.extractLsb' 0 3 ≠ 0 :=
  mt (aligned_iff addr).1 h

/-! ## What a read answers (R68) -/

theorem hostRead_narrow (s : State) {addr : BusAddr} {i : RegField} {j : Nat} (hj : j < 4)
    (h : addr.toNat = 32 * i.toNat + 8 * j) : hostRead s addr = (limb (s.readN i) j, false) := by
  obtain ⟨haligned, hlt, hi, hfield⟩ := narrowAddr_fields hj h
  rw [hostRead, if_neg (not_not.2 haligned), if_pos hlt, hi, hfield]

theorem hostRead_wide (s : State) {addr : BusAddr} {k : BitVec 2} {j : Nat} (hj : j < 8)
    (h : addr.toNat = 0x100 + 64 * k.toNat + 8 * j) : hostRead s addr = (limb (s.readW k) j, false) := by
  obtain ⟨haligned, hge, hlt, hk, hfield⟩ := wideAddr_fields hj h
  rw [hostRead, if_neg (not_not.2 haligned), if_neg hge, if_pos hlt, hk, hfield]

theorem hostRead_window (s : State) {addr : BusAddr} {m : Nat} (hm : m < 32) (h : addr.toNat = 0x200 + 8 * m) :
    hostRead s addr = (windowRead s.buf (8 * m), false) := by
  obtain ⟨haligned, hge1, hge2, hlt, hfield⟩ := windowAddr_fields hm h
  rw [hostRead, if_neg (not_not.2 haligned), if_neg hge1, if_neg hge2, if_pos hlt, hfield]

/-- `CMD` reads as 0 (R75). -/
theorem hostRead_cmd (s : State) : hostRead s 0x300 = (0, false) := rfl

theorem hostRead_flags (s : State) : hostRead s 0x310 = (s.flagsWord, false) := rfl

/-- A misaligned or unmapped address answers a bus error (R66, R74). -/
theorem hostRead_error (s : State) {addr : BusAddr} (h : addr.toNat % 8 ≠ 0 ∨ 0x318 ≤ addr.toNat) :
    hostRead s addr = (0, true) := by
  by_cases haligned : addr.toNat % 8 = 0
  · have hge : 0x318 ≤ addr.toNat := h.resolve_left (not_not.2 haligned)
    rw [hostRead, if_neg (not_not.2 ((aligned_iff addr).2 haligned)), if_neg (by omega), if_neg (by omega),
      if_neg (by omega), if_neg (by omega), if_neg (by omega), if_neg (by omega)]
  · rw [hostRead, if_pos (misaligned_of_mod_ne haligned)]

/-- `C` in bit 0 and `LT` in bit 1 (R27). -/
theorem toNat_flagsWord (s : State) : s.flagsWord.toNat = s.flagC.toNat + 2 * s.flagLT.toNat := by
  have hC := s.flagC.toNat_le
  have hLT := s.flagLT.toNat_le
  rw [State.flagsWord, BitVec.toNat_ofNat, Nat.mod_eq_of_lt (by omega)]

/-- Byte `b` of the doubleword over `BUF[a .. a+7]` is `BUF[a+b]`: the eight bytes are its digits to the base 256 (R64, R72). -/
theorem extractLsb'_windowRead (m : Memory) (a : Nat) {b : Nat} (hb : b < 8) :
    (windowRead m a).extractLsb' (8 * b) 8 = m.byteAt (a + b) := by
  have h0 := (m.byteAt a).isLt
  have h1 := (m.byteAt (a + 1)).isLt
  have h2 := (m.byteAt (a + 2)).isLt
  have h3 := (m.byteAt (a + 3)).isLt
  have h4 := (m.byteAt (a + 4)).isLt
  have h5 := (m.byteAt (a + 5)).isLt
  have h6 := (m.byteAt (a + 6)).isLt
  have h7 := (m.byteAt (a + 7)).isLt
  apply extractLsb'_eq_of_toNat
  rw [windowRead, BitVec.toNat_ofNat]
  interval_cases b
  · rw [Nat.mul_zero, Nat.pow_zero, Nat.div_one]
    change _ = (m.byteAt a).toNat
    omega
  all_goals omega

/-! ## Acceptance of a read (R61, R67, R68) -/

/-- Reply, queue and time are the model's own, no state of the block (assumption logs 1, 3, 14). -/
theorem sameBlock_port_reply_left_clock (s : State) (reply : Option BusReply) (port : List HostEvent) (left clock : Nat) :
    SameBlock s { s with reply := reply, port := port, left := left, clock := clock } :=
  ⟨fun _ => rfl, fun _ => rfl, fun _ => rfl, ⟨rfl, rfl⟩, rfl, rfl, rfl, rfl⟩

/-- A read while idle, or of `STATUS` in a cycle before the completion, is accepted with the answer of R68 and changes no state
of the block. -/
theorem step_acceptsRead {s : State} {addr : BusAddr} {rest : List HostEvent}
    (h : s.phase = .idle ∨ (addr = 0x308 ∧ 0 < s.left)) (hq : s.port = .read addr :: rest) :
    ∃ t, step s = .next t ∧ t.reply = some (.read (hostRead s addr).1 (hostRead s addr).2) ∧ t.port = rest ∧
      t.clock = s.clock + 1 ∧ SameBlock s t := by
  cases hp : s.phase with
  | idle =>
    exact ⟨_, step_idle hp hq, rfl, rfl, rfl, sameBlock_port_reply_left_clock s _ _ _ _⟩
  | exec =>
    obtain ⟨rfl, hleft⟩ := h.resolve_left (by simp [hp])
    exact ⟨_, step_status_while_busy hp hq hleft, rfl, rfl, rfl, sameBlock_port_reply_left_clock s _ _ _ _⟩

/-- Settles O35: the read is accepted, and each clause is what R68 says of its kind of address. -/
theorem hostReadAnswers : Obligations.HostReadAnswers := by
  intro s addr rest hacc hq
  obtain ⟨t, hstep, hreply, hport, -, hsame⟩ := step_acceptsRead hacc hq
  refine ⟨_, _, t, hstep, hreply, hport, hsame, fun i j hj h => ?_, fun k j hj h => ?_, fun m hm h => ?_, fun h => ?_,
    fun h => ?_, fun h => ?_, fun h => ?_⟩
  · rw [hostRead_narrow s hj h]
    exact ⟨rfl, rfl⟩
  · rw [hostRead_wide s hj h]
    exact ⟨rfl, rfl⟩
  · rw [hostRead_window s hm h]
    exact ⟨fun b hb => extractLsb'_windowRead s.buf (8 * m) hb, rfl⟩
  · subst h
    rw [hostRead_cmd]
    exact ⟨rfl, rfl⟩
  · subst h
    rw [hostRead_status]
    exact ⟨toNat_statusWord s, rfl⟩
  · subst h
    rw [hostRead_flags]
    exact ⟨toNat_flagsWord s, rfl⟩
  · rw [hostRead_error s h]
    exact ⟨rfl, rfl⟩

/-! ## What a write does (R69) -/

theorem hostWrite_narrow (s : State) {addr : BusAddr} (d : Limb) {i : RegField} {j : Nat} (hj : j < 4)
    (h : addr.toNat = 32 * i.toNat + 8 * j) :
    hostWrite s addr d = (s.writeN i (setLimb (s.readN i) j d), false) := by
  obtain ⟨haligned, hlt, hi, hfield⟩ := narrowAddr_fields hj h
  rw [hostWrite, if_neg (not_not.2 haligned), if_pos hlt, hi, hfield]

theorem hostWrite_wide (s : State) {addr : BusAddr} (d : Limb) {k : BitVec 2} {j : Nat} (hj : j < 8)
    (h : addr.toNat = 0x100 + 64 * k.toNat + 8 * j) :
    hostWrite s addr d = (s.writeW k (setLimb (s.readW k) j d), false) := by
  obtain ⟨haligned, hge, hlt, hk, hfield⟩ := wideAddr_fields hj h
  rw [hostWrite, if_neg (not_not.2 haligned), if_neg hge, if_pos hlt, hk, hfield]

theorem hostWrite_window (s : State) {addr : BusAddr} (d : Limb) {m : Nat} (hm : m < 32) (h : addr.toNat = 0x200 + 8 * m) :
    hostWrite s addr d = ({ s with buf := s.buf.putRun (8 * m) (windowBytes d) }, false) := by
  obtain ⟨haligned, hge1, hge2, hlt, hfield⟩ := windowAddr_fields hm h
  rw [hostWrite, if_neg (not_not.2 haligned), if_neg hge1, if_neg hge2, if_pos hlt, hfield]

/-- A misaligned, unmapped or read-only address answers a bus error, and nothing is written (R66, R74, R75). -/
theorem hostWrite_error (s : State) {addr : BusAddr} (d : Limb)
    (h : addr.toNat % 8 ≠ 0 ∨ addr = 0x308 ∨ addr = 0x310 ∨ 0x318 ≤ addr.toNat) : hostWrite s addr d = (s, true) := by
  by_cases haligned : addr.toNat % 8 = 0
  · have hge : 0x308 ≤ addr.toNat := by
      rcases h.resolve_left (not_not.2 haligned) with rfl | rfl | hge
      · exact Nat.le_refl _
      · decide
      · omega
    rw [hostWrite, if_neg (not_not.2 ((aligned_iff addr).2 haligned)), if_neg (by omega), if_neg (by omega),
      if_neg (by omega), if_neg (by omega)]
  · rw [hostWrite, if_pos (misaligned_of_mod_ne haligned)]

/-- An accepted write is its effect, its reply and one cycle (R61). -/
theorem acceptWrite_of_hostWrite {s u : State} {addr : BusAddr} {d : Limb} {err : Bool}
    (h : hostWrite s addr d = (u, err)) :
    acceptWrite addr d s = { u with reply := some (.write err), clock := s.clock + 1 } := by
  rw [acceptWrite, h]

theorem acceptWrite_port (addr : BusAddr) (d : Limb) (s : State) : (acceptWrite addr d s).port = s.port := by
  change (hostWrite s addr d).1.port = s.port
  rcases hostWrite_cases s addr d with h | ⟨i, v, h⟩ | ⟨k, v, h⟩ | ⟨m, -, h⟩ | h <;> rw [h] <;> rfl

/-- The limbs after a write of limb `j`: the data at `j`, the others as before (R69). -/
theorem limbs_setLimb {m : Nat} (v : BitVec (64 * m)) {j : Nat} (d : Limb) (hj : j < m) :
    limb (setLimb v j d) j = d ∧ ∀ l, l < m → l ≠ j → limb (setLimb v j d) l = limb v l := by
  refine ⟨?_, fun l hl hne => ?_⟩
  · rw [limb_setLimb v j j d (by omega) (by omega), if_pos rfl]
  · rw [limb_setLimb v j l d (by omega) (by omega), if_neg hne]

theorem limbs_readN_writeN (s : State) (i : RegField) {j : Nat} (d : Limb) (hj : j < 4) :
    limb ((s.writeN i (setLimb (s.readN i) j d)).readN i) j = d ∧
    ∀ l, l < 4 → l ≠ j → limb ((s.writeN i (setLimb (s.readN i) j d)).readN i) l = limb (s.readN i) l := by
  rw [State.readN_writeN_self]
  exact limbs_setLimb (m := 4) (s.readN i) d hj

theorem limbs_readW_writeW (s : State) (k : BitVec 2) {j : Nat} (d : Limb) (hj : j < 8) :
    limb ((s.writeW k (setLimb (s.readW k) j d)).readW k) j = d ∧
    ∀ l, l < 8 → l ≠ j → limb ((s.writeW k (setLimb (s.readW k) j d)).readW k) l = limb (s.readW k) l := by
  rw [State.readW_writeW_self]
  exact limbs_setLimb (m := 8) (s.readW k) d hj

/-- Each byte of a doubleword written to the window reads back (R64, R69). -/
theorem byteAt_putRun_windowBytes (m : Memory) (a : Nat) (d : Limb) {b : Nat} (hb : b < 8) :
    (m.putRun a (windowBytes d)).byteAt (a + b) = d.extractLsb' (8 * b) 8 := by
  rw [Memory.byteAt_putRun_inside _ m a b (by rwa [length_windowBytes]), windowBytes_getD d hb]

/-- Settles O36: while idle the step is the accepted write, and each clause is what R69 says of its kind of address. -/
theorem hostWriteEffects : Obligations.HostWriteEffects := by
  intro s addr d rest hp hq
  refine ⟨_, step_idle hp hq, acceptWrite_port addr d _, fun i j hj h => ?_, fun k j hj h => ?_, fun m hm h => ?_,
    fun h => ?_, fun h => ?_⟩
  · rw [idleStep, acceptWrite_of_hostWrite (hostWrite_narrow _ d hj h)]
    obtain ⟨hlimb, hothers⟩ := limbs_readN_writeN s i d hj
    exact ⟨rfl, hlimb, hothers, fun r hr => s.readN_writeN_of_ne _ hr, fun _ => rfl, fun _ => rfl, ⟨rfl, rfl⟩, rfl, rfl,
      rfl, rfl⟩
  · rw [idleStep, acceptWrite_of_hostWrite (hostWrite_wide _ d hj h)]
    obtain ⟨hlimb, hothers⟩ := limbs_readW_writeW s k d hj
    exact ⟨rfl, hlimb, hothers, fun r hr => s.readW_writeW_of_ne _ hr, fun _ => rfl, fun _ => rfl, ⟨rfl, rfl⟩, rfl, rfl,
      rfl, rfl⟩
  · rw [idleStep, acceptWrite_of_hostWrite (hostWrite_window _ d hm h)]
    exact ⟨rfl, fun b hb => byteAt_putRun_windowBytes s.buf (8 * m) d hb,
      fun a ha => Memory.byteAt_putRun_outside (windowBytes d) s.buf (8 * m) a ha, fun _ => rfl, fun _ => rfl, ⟨rfl, rfl⟩,
      rfl, rfl, rfl, rfl⟩
  · subst h
    rw [idleStep, acceptWrite_of_hostWrite (hostWrite_cmd _ d)]
    exact ⟨rfl, rfl, toNat_wordOfBus d, rfl, fun _ => rfl, fun _ => rfl, fun _ => rfl, rfl, rfl⟩
  · rw [idleStep, acceptWrite_of_hostWrite (hostWrite_error _ d h)]
    exact ⟨rfl, sameBlock_port_reply_left_clock s _ _ _ _⟩

/-! ## The ready rule (R67) -/

theorem hReady_read (s : State) (addr : BusAddr) : s.hReady (.read addr) = true ↔ s.phase = .idle ∨ addr = 0x308 := by
  cases hp : s.phase <;> simp [State.hReady, State.busy, hp]

theorem hReady_write (s : State) (addr : BusAddr) (d : Limb) : s.hReady (.write addr d) = true ↔ s.phase = .idle := by
  cases hp : s.phase <;> simp [State.hReady, State.busy, hp]

/-- On the engine's turn the step is the completion, which leaves the queue and the last reply (R34). -/
theorem step_holds_of_engineTurn {s t : State} (hturn : engineTurn s) (h : step s = .next t) :
    t.port = s.port ∧ t.reply = s.reply := by
  obtain ⟨hport, hreply, -⟩ := engineComplete_keeps ((step_eq_engineComplete hturn).symm.trans h)
  exact ⟨hport, hreply⟩

/-- Settles O39: where `h_ready` is 1 the step is the acceptance, and where it is 0 it is the engine's turn. -/
theorem readyMeansAccepted : Obligations.ReadyMeansAccepted := by
  rintro s e rest t hq (⟨addr, rfl⟩ | ⟨addr, d, rfl⟩) hleft hstep
  · refine ⟨fun hready => ?_, fun hheld => ?_⟩
    · have hacc : s.phase = .idle ∨ (addr = 0x308 ∧ 0 < s.left) := by
        cases hp : s.phase with
        | idle => exact .inl rfl
        | exec => exact .inr ⟨((hReady_read s addr).1 hready).resolve_left (by simp [hp]), hleft hp⟩
      obtain ⟨u, hu, hreply, hport, hclock, -⟩ := step_acceptsRead hacc hq
      obtain rfl := Host.Outcome.next.inj (hu.symm.trans hstep)
      exact ⟨hport, hclock, by rw [hreply]; rfl⟩
    · have hnot : ¬(s.phase = .idle ∨ addr = 0x308) := mt (hReady_read s addr).2 (by simp [hheld])
      obtain ⟨hbusy, hne⟩ := not_or.1 hnot
      cases hp : s.phase with
      | idle => exact absurd hp hbusy
      | exec => exact step_holds_of_engineTurn (engineTurn_read hp hq hne) hstep
  · cases hp : s.phase with
    | idle =>
      obtain rfl := Host.Outcome.next.inj ((step_idle hp hq).symm.trans hstep)
      exact ⟨fun _ => ⟨acceptWrite_port addr d _, rfl, rfl⟩,
        fun hheld => absurd ((hReady_write s addr d).2 hp) (by simp [hheld])⟩
    | exec =>
      exact ⟨fun hready => absurd ((hReady_write s addr d).1 hready) (by simp [hp]),
        fun _ => step_holds_of_engineTurn (engineTurn_write hp hq) hstep⟩

/-! ## Runs that leave `BUF` (R76, R219) -/

/-- With its one legal length `FROMBF` is the parse (R212). -/
theorem exec_frombf_32 (rd : RegField) (addr : BitVec 8) (s : State) :
    exec (.frombf rd addr 32) s = parseInto rd addr.toNat 32 s := by
  rw [exec, execFrombf, if_pos (show (32 : BitVec 6).toNat = 32 from rfl)]

/-- With a legal length `FROMBV` is the parse (R214). -/
theorem exec_frombv_of_le (rd : RegField) (addr : BitVec 8) {len : BitVec 6} (s : State) (h : len.toNat ≤ 32) :
    exec (.frombv rd addr len) s = parseInto rd addr.toNat len.toNat s := if_pos h

theorem parseInto_outside (rd : RegField) {addr len : Nat} (s : State) (h : 256 < addr + len) :
    parseInto rd addr len s = .next (s.finish .bufRange) := by
  rcases parseInto_cases rd addr len s with ⟨-, hout⟩ | ⟨hin, -⟩
  · exact hout
  · omega

theorem execTob_outside (rs : RegField) {addr : BitVec 8} (s : State) (h : 256 < addr.toNat + 32) :
    execTob rs addr s = .next (s.finish .bufRange) := by
  rcases execTob_cases rs addr s with ⟨-, hout⟩ | ⟨hin, -⟩
  · exact hout
  · omega

/-- A completion with `ERR_BUF_RANGE` reports code 5 and writes nothing else (R245, R248). -/
theorem wroteOnlyCode5_of_eq {s : State} {r : Result} (h : r = .next (s.finish .bufRange)) :
    ∃ t, r = .next t ∧ WroteOnlyErr s t .bufRange ∧ (errBits t.err).toNat = 5 :=
  ⟨_, h, wroteOnlyErr_finish s .bufRange, rfl⟩

/-- Settles O26: with a legal length each of the three commands reaches the check of its run. -/
theorem runOutsideBufWritesOnlyCode5 : Obligations.RunOutsideBufWritesOnlyCode5 := by
  intro r addr s
  refine ⟨fun hout => ⟨wroteOnlyCode5_of_eq ?_, wroteOnlyCode5_of_eq (execTob_outside r s hout)⟩,
    fun len hlen hout => wroteOnlyCode5_of_eq ?_⟩
  · rw [exec_frombf_32, parseInto_outside r s hout]
  · rw [exec_frombv_of_le r addr s hlen, parseInto_outside r s hout]

end Sys2Proof.Machine
end


section
/-! PROOF. The encoding (spec 30_encoding.md): the decoder and the encoder are inverse (R114), and the decoder agrees with
the opcode map (R103). -/

namespace Sys2Proof.Machine

/-! ## A word is made of its fields (R101, R114) -/

/-- A field of a word is a digit of its number. -/
theorem toNat_extractLsb' {n : Nat} (w : BitVec n) (s l : Nat) : (w.extractLsb' s l).toNat = w.toNat / 2 ^ s % 2 ^ l := by
  rw [BitVec.extractLsb'_toNat, Nat.shiftRight_eq_div_pow]

/-- Bits that are all 0 are a digit that is 0. -/
theorem extractLsb'_eq_zero_iff {n s l : Nat} {w : BitVec n} : w.extractLsb' s l = 0#l ↔ w.toNat / 2 ^ s % 2 ^ l = 0 := by
  rw [BitVec.toNat_eq, toNat_extractLsb', BitVec.toNat_ofNat, Nat.zero_mod]

section WordOfFields
variable {cw : CmdWord} {op : Nat} (hop : (opField cw).toNat = op)
include hop

/-- The register formats: the low 12 bits stand for themselves. -/
theorem registerWord_fields : registerWord op (fdField cw) (faField cw) (fbField cw) (fnField cw) (cw.toNat % 2 ^ 12) = cw := by
  subst hop
  apply BitVec.eq_of_toNat_eq
  rw [registerWord, BitVec.toNat_ofNat]
  simp only [opField, fdField, faField, fbField, fnField, toNat_extractLsb']
  have := cw.isLt
  omega

/-- Formats RN and WN. -/
theorem registerWord_of_lowBits12 (h : cw.extractLsb' 0 12 = 0) :
    registerWord op (fdField cw) (faField cw) (fbField cw) (fnField cw) 0 = cw := by
  have hlow := extractLsb'_eq_zero_iff.1 h
  rw [pow_zero, Nat.div_one] at hlow
  simpa only [hlow] using registerWord_fields hop

/-- Formats RRR, C2 and MW. -/
theorem registerWord_of_lowBits15 (h : cw.extractLsb' 0 15 = 0) :
    registerWord op (fdField cw) (faField cw) (fbField cw) 0 0 = cw := by
  have hlow := extractLsb'_eq_zero_iff.1 h
  have hfn : fnField cw = 0 := extractLsb'_eq_zero_iff.2 (by omega)
  simpa only [hfn] using registerWord_of_lowBits12 hop (extractLsb'_eq_zero_iff.2 (by omega))

/-- Format E. -/
theorem registerWord_of_bits9 (h : cw.extractLsb' 9 3 = 0) :
    registerWord op (fdField cw) (faField cw) (fbField cw) (fnField cw) (bbitsField cw).toNat = cw := by
  have hzero := extractLsb'_eq_zero_iff.1 h
  have hlow : cw.toNat % 2 ^ 12 = (bbitsField cw).toNat := by rw [bbitsField, toNat_extractLsb']; omega
  simpa only [hlow] using registerWord_fields hop

/-- Format BL. -/
theorem bufferWord_of_bits14 (h : cw.extractLsb' 14 7 = 0) :
    bufferWord op (fdField cw) (lenField cw) (addrField cw) = cw := by
  subst hop
  have hzero := extractLsb'_eq_zero_iff.1 h
  apply BitVec.eq_of_toNat_eq
  rw [toNat_bufferWord _ _ _ (opField cw).isLt]
  simp only [opField, fdField, lenField, addrField, toNat_extractLsb']
  have := cw.isLt
  omega

/-- Format BS. -/
theorem bufferWord_of_bits8 (h : cw.extractLsb' 8 13 = 0) : bufferWord op (fdField cw) 0 (addrField cw) = cw := by
  have hzero := extractLsb'_eq_zero_iff.1 h
  have hlen : lenField cw = 0 := extractLsb'_eq_zero_iff.2 (by omega)
  simpa only [hlen] using bufferWord_of_bits14 hop (extractLsb'_eq_zero_iff.2 (by omega))

end WordOfFields

/-- A 9-bit exponent length below 256 is the 8-bit operand of the first row of `MODEXP` (R105). -/
theorem toNat_addrField_of_bbits {cw : CmdWord} (h : (bbitsField cw).toNat < 256) :
    (addrField cw).toNat = (bbitsField cw).toNat := by
  simp only [bbitsField, addrField, toNat_extractLsb'] at h ⊢
  omega

/-! ## Encoding a decoded word (R114) -/

/-- A check of the decoder that it passed. -/
theorem of_check_ok {c : Prop} [Decidable c] {x : Except Illegal Instr} {e : Illegal} {i : Instr}
    (h : (if c then x else .error e) = .ok i) : c ∧ x = .ok i := by
  split at h
  case isTrue hc => exact ⟨hc, h⟩
  case isFalse => cases h

/-- A word that decodes is the word of its command, and the command is legal: each branch of the decoder keeps the fields that
the encoder writes, and has checked that the other bits are 0. -/
theorem encode_of_decode {cw : CmdWord} {i : Instr} (h : decode cw = .ok i) : encode i = cw ∧ i.wellFormed = true := by
  simp only [decode] at h
  split at h
  case h_1 hop =>
    obtain ⟨hlow, ⟨⟩⟩ := of_check_ok h
    exact ⟨registerWord_of_lowBits15 hop hlow, rfl⟩
  case h_2 hop =>
    obtain ⟨hlow, ⟨⟩⟩ := of_check_ok h
    exact ⟨registerWord_of_lowBits15 hop hlow, rfl⟩
  case h_3 hop =>
    obtain ⟨⟨hlow, hfd⟩, ⟨⟩⟩ := of_check_ok h
    exact ⟨by simpa only [encode, hfd] using registerWord_of_lowBits15 hop hlow, rfl⟩
  case h_4 hop =>
    obtain ⟨hlow, hwide⟩ := of_check_ok h
    obtain ⟨hwd, ⟨⟩⟩ := of_check_ok hwide
    exact ⟨registerWord_of_lowBits15 hop hlow, hwd⟩
  case h_5 hop =>
    obtain ⟨⟨hlow, hfb⟩, ⟨⟩⟩ := of_check_ok h
    exact ⟨by simpa only [encode, hfb] using registerWord_of_lowBits12 hop hlow, rfl⟩
  case h_6 hop =>
    obtain ⟨⟨hlow, hfb⟩, hwide⟩ := of_check_ok h
    obtain ⟨hwa, ⟨⟩⟩ := of_check_ok hwide
    exact ⟨by simpa only [encode, hfb] using registerWord_of_lowBits12 hop hlow, hwa⟩
  case h_7 hop =>
    obtain ⟨hbits, hlen⟩ := of_check_ok h
    have hword := registerWord_of_bits9 hop hbits
    split at hlen
    case isTrue hsmall =>
      cases hlen
      exact ⟨by simpa only [encode, ← toNat_addrField_of_bbits hsmall] using hword, rfl⟩
    case isFalse =>
      obtain ⟨h256, ⟨⟩⟩ := of_check_ok hlen
      exact ⟨by simpa only [encode, h256] using hword, rfl⟩
  case h_8 hop =>
    obtain ⟨hbits, ⟨⟩⟩ := of_check_ok h
    exact ⟨bufferWord_of_bits14 hop hbits, rfl⟩
  case h_9 hop =>
    obtain ⟨hbits, ⟨⟩⟩ := of_check_ok h
    exact ⟨bufferWord_of_bits14 hop hbits, rfl⟩
  case h_10 hop =>
    obtain ⟨hbits, ⟨⟩⟩ := of_check_ok h
    exact ⟨bufferWord_of_bits8 hop hbits, rfl⟩
  case h_11 => cases h

/-- The number of a command's word (R114). -/
theorem toNat_encode (i : Instr) : (encode i).toNat = wordNumber i := by
  cases i with
  | add | sub | lt | mul | mod | modw | modexp256 =>
    simp only [encode, wordNumber]
    rw [toNat_registerWord _ _ _ _ (by decide) (by decide)]
    simp
  | modexp rd ra rb rn bbits => exact toNat_registerWord rd ra rb rn (by decide) (by omega)
  | frombf rd addr len => exact toNat_bufferWord rd len addr (by decide)
  | frombv rd addr len => exact toNat_bufferWord rd len addr (by decide)
  | tob rs addr => exact toNat_bufferWord rs 0 addr (by decide)

/-- Settles O1. -/
theorem decodeEncodeRoundTrip : Obligations.DecodeEncodeRoundTrip :=
  ⟨fun _ => decode_encode, fun _ _ => encode_of_decode, toNat_encode⟩

/-- The word of a legal command decodes to it. -/
theorem decode_of_encode_eq {i : Instr} {cw : CmdWord} (hi : i.wellFormed = true) (h : encode i = cw) : decode cw = .ok i :=
  h ▸ decode_encode hi

/-- Settles O3: each example word is the word of its command. -/
theorem sampleWordsDecode : Obligations.SampleWordsDecode := by
  refine ⟨decode_of_encode_eq rfl ?_, decode_of_encode_eq rfl ?_, decode_of_encode_eq rfl ?_, decode_of_encode_eq rfl ?_,
    decode_of_encode_eq rfl ?_, decode_of_encode_eq rfl ?_, decode_of_encode_eq rfl ?_, decode_of_encode_eq rfl ?_,
    decode_of_encode_eq rfl ?_, decode_of_encode_eq rfl ?_, decode_of_encode_eq rfl ?_⟩ <;> rfl

/-! ## The opcode map (R103) -/

/-- One test of a row of the opcode map: the `len` bits from bit `start` up read `value`. -/
structure FieldTest where
  start : Nat
  len : Nat
  value : BitVec len
  fits : start + len ≤ 32 := by decide

/-- The ones of a row's mask that the test accounts for. -/
def FieldTest.mask (f : FieldTest) : CmdWord := (BitVec.allOnes f.len).setWidth 32 <<< f.start

/-- The bits of a row's match that the test accounts for. -/
def FieldTest.bits (f : FieldTest) : CmdWord := f.value.setWidth 32 <<< f.start

def FieldTest.holds (f : FieldTest) (cw : CmdWord) : Prop := cw.extractLsb' f.start f.len = f.value

/-- The row of the opcode map that a list of tests amounts to. -/
def rowOfTests : List FieldTest → OpcodeRow
  | [] => ⟨0, 0⟩
  | f :: fs => ⟨f.mask ||| (rowOfTests fs).mask, f.bits ||| (rowOfTests fs).value⟩

/-- No bit of a word is tested twice. -/
def testsDisjoint : List FieldTest → Prop
  | [] => True
  | f :: fs => f.mask &&& (rowOfTests fs).mask = 0 ∧ testsDisjoint fs

theorem FieldTest.getLsbD_mask (f : FieldTest) {k : Nat} (hk : k < 32) :
    f.mask.getLsbD k = decide (f.start ≤ k ∧ k < f.start + f.len) := by
  rw [Bool.eq_iff_iff, decide_eq_true_iff, FieldTest.mask]
  simp [hk]
  omega

theorem FieldTest.getLsbD_bits (f : FieldTest) {k : Nat} (hk : k < 32) :
    f.bits.getLsbD k = (decide (f.start ≤ k) && f.value.getLsbD (k - f.start)) := by
  rw [Bool.eq_iff_iff, FieldTest.bits]
  simp [hk]

/-- A test is its mask and its match. -/
theorem FieldTest.and_mask_eq_bits_iff (f : FieldTest) (cw : CmdWord) : cw &&& f.mask = f.bits ↔ f.holds cw := by
  have hfits := f.fits
  rw [FieldTest.holds, BitVec.eq_of_getLsbD_eq_iff, BitVec.eq_of_getLsbD_eq_iff]
  refine ⟨fun h k hk => ?_, fun h k hk => ?_⟩
  · have hbit := h (f.start + k) (by omega)
    rw [BitVec.getLsbD_and, f.getLsbD_mask (by omega), f.getLsbD_bits (by omega)] at hbit
    simpa [hk] using hbit
  · rw [BitVec.getLsbD_and, f.getLsbD_mask hk, f.getLsbD_bits hk]
    by_cases hlow : f.start ≤ k
    · by_cases hhigh : k < f.start + f.len
      · have hbit := h (k - f.start) (by omega)
        simpa [hlow, hhigh, show k - f.start < f.len by omega] using hbit
      · simp [hhigh, BitVec.getLsbD_of_ge f.value (k - f.start) (by omega)]
    · simp [hlow]

/-- The bits of a match lie under its mask. -/
theorem FieldTest.bits_and_mask (f : FieldTest) : f.bits &&& f.mask = f.bits := by
  rw [f.and_mask_eq_bits_iff, FieldTest.holds, BitVec.eq_of_getLsbD_eq_iff]
  intro k hk
  have hfits := f.fits
  simp [hk, f.getLsbD_bits (show f.start + k < 32 by omega)]

/-- Two matches under disjoint masks are tested separately. -/
theorem and_or_eq_or_iff {w : Nat} {x m n u v : BitVec w} (hu : u &&& m = u) (hv : v &&& n = v) (hmn : m &&& n = 0#w) :
    x &&& (m ||| n) = u ||| v ↔ x &&& m = u ∧ x &&& n = v := by
  simp only [BitVec.eq_of_getLsbD_eq_iff, BitVec.getLsbD_and, BitVec.getLsbD_or, BitVec.getLsbD_zero, ← forall_and]
    at hu hv hmn ⊢
  exact forall_congr' fun k => by grind

theorem value_and_mask_rowOfTests {fs : List FieldTest} :
    (rowOfTests fs).value &&& (rowOfTests fs).mask = (rowOfTests fs).value := by
  induction fs with
  | nil => rfl
  | cons f fs ih =>
    have hf := f.bits_and_mask
    simp only [rowOfTests, BitVec.eq_of_getLsbD_eq_iff, BitVec.getLsbD_and, BitVec.getLsbD_or] at hf ih ⊢
    grind

/-- A row admits a word exactly when each of its tests holds. -/
theorem admits_rowOfTests_iff {fs : List FieldTest} (h : testsDisjoint fs) (cw : CmdWord) :
    (rowOfTests fs).admits cw = true ↔ ∀ f ∈ fs, f.holds cw := by
  rw [OpcodeRow.admits, beq_iff_eq]
  induction fs with
  | nil => simp [rowOfTests]
  | cons f fs ih =>
    obtain ⟨hf, hfs⟩ := h
    rw [rowOfTests, and_or_eq_or_iff f.bits_and_mask value_and_mask_rowOfTests hf, f.and_mask_eq_bits_iff, ih hfs,
      List.forall_mem_cons]

/-- The tests of an instruction's row, in the decoder's terms: the opcode byte, the bits marked 0, and for `MUL`, `MODW` and
`MODEXP` the top bits of the checked operand (R103 to R109). -/
def rowTests : Instr → List FieldTest
  | .add _ _ _ => [.mk 24 8 1, .mk 0 15 0]
  | .sub _ _ _ => [.mk 24 8 2, .mk 0 15 0]
  | .lt _ _ => [.mk 24 8 3, .mk 0 15 0, .mk 21 3 0]
  | .mul _ _ _ => [.mk 24 8 4, .mk 0 15 0, .mk 23 1 0]
  | .mod _ _ _ => [.mk 24 8 5, .mk 0 12 0, .mk 15 3 0]
  | .modw _ _ _ => [.mk 24 8 6, .mk 0 12 0, .mk 15 3 0, .mk 20 1 0]
  | .modexp _ _ _ _ _ => [.mk 24 8 7, .mk 9 3 0, .mk 8 1 0]
  | .modexp256 _ _ _ _ => [.mk 24 8 7, .mk 9 3 0, .mk 0 9 256]
  | .frombf _ _ _ => [.mk 24 8 8, .mk 14 7 0]
  | .frombv _ _ _ => [.mk 24 8 9, .mk 14 7 0]
  | .tob _ _ => [.mk 24 8 10, .mk 8 13 0]

theorem rowOfTests_rowTests (i : Instr) : rowOfTests (rowTests i) = rowOf i := by
  cases i <;> rfl

theorem testsDisjoint_rowTests (i : Instr) : testsDisjoint (rowTests i) := by
  cases i <;> simp only [testsDisjoint, rowTests] <;> decide

/-- The row of an instruction, test by test. -/
theorem admits_rowOf_iff (i : Instr) (cw : CmdWord) : (rowOf i).admits cw = true ↔ ∀ f ∈ rowTests i, f.holds cw := by
  rw [← rowOfTests_rowTests, admits_rowOfTests_iff (testsDisjoint_rowTests i)]

theorem FieldTest.holds_iff (f : FieldTest) (cw : CmdWord) :
    f.holds cw ↔ cw.toNat / 2 ^ f.start % 2 ^ f.len = f.value.toNat := by
  rw [FieldTest.holds, BitVec.toNat_eq, toNat_extractLsb']

theorem wideField_iff (k : RegField) : wideField k = true ↔ k.toNat < 4 := by
  rw [wideField, decide_eq_true_iff]

/-- The row of a legal command admits its word: the tested digits of the number of R114. -/
theorem admits_encode {i : Instr} (h : i.wellFormed = true) : (rowOf i).admits (encode i) = true := by
  rw [admits_rowOf_iff]
  simp only [FieldTest.holds_iff, toNat_encode]
  cases i with
  | add | sub | lt | mod | modexp | modexp256 | frombf | frombv | tob =>
    simp only [rowTests, wordNumber, List.forall_mem_cons, List.not_mem_nil, false_imp_iff, implies_true, and_true,
      BitVec.reduceToNat]
    omega
  | mul wd ra rb =>
    have hwd : wd.toNat < 4 := (wideField_iff wd).1 h
    simp only [rowTests, wordNumber, List.forall_mem_cons, List.not_mem_nil, false_imp_iff, implies_true, and_true,
      BitVec.reduceToNat]
    omega
  | modw rd wa rn =>
    have hwa : wa.toNat < 4 := (wideField_iff wa).1 h
    simp only [rowTests, wordNumber, List.forall_mem_cons, List.not_mem_nil, false_imp_iff, implies_true, and_true,
      BitVec.reduceToNat]
    omega

/-- The top bit of a wide field is 0 exactly when it names a wide register (R108). -/
theorem wideField_fdField_of_bit23 {cw : CmdWord} (h : cw.extractLsb' 23 1 = 0) : wideField (fdField cw) = true := by
  have hbit := extractLsb'_eq_zero_iff.1 h
  rw [wideField_iff, fdField, toNat_extractLsb']
  omega

theorem wideField_faField_of_bit20 {cw : CmdWord} (h : cw.extractLsb' 20 1 = 0) : wideField (faField cw) = true := by
  have hbit := extractLsb'_eq_zero_iff.1 h
  rw [wideField_iff, faField, toNat_extractLsb']
  omega

theorem toNat_bbitsField_lt_of_bit8 {cw : CmdWord} (h : cw.extractLsb' 8 1 = 0) : (bbitsField cw).toNat < 256 := by
  have hbit := extractLsb'_eq_zero_iff.1 h
  rw [bbitsField, toNat_extractLsb']
  omega

/-- A word that a command's row admits decodes to a command of that row: the row's tests are the decoder's checks. -/
theorem decode_of_admits_rowOf {cw : CmdWord} {i : Instr} (h : (rowOf i).admits cw = true) :
    ∃ j, decode cw = .ok j ∧ rowOf j = rowOf i := by
  rw [admits_rowOf_iff] at h
  cases i <;> simp only [rowTests, List.forall_mem_cons, FieldTest.holds] at h
  case add =>
    obtain ⟨hop, hlow, -⟩ := h
    exact ⟨.add (fdField cw) (faField cw) (fbField cw), by simp [decode, opField, hop, hlow], rfl⟩
  case sub =>
    obtain ⟨hop, hlow, -⟩ := h
    exact ⟨.sub (fdField cw) (faField cw) (fbField cw), by simp [decode, opField, hop, hlow], rfl⟩
  case lt =>
    obtain ⟨hop, hlow, hfd, -⟩ := h
    exact ⟨.lt (faField cw) (fbField cw), by simp [decode, opField, hop, hlow, fdField, hfd], rfl⟩
  case mul =>
    obtain ⟨hop, hlow, hbit, -⟩ := h
    have hwd := wideField_fdField_of_bit23 hbit
    exact ⟨.mul (fdField cw) (faField cw) (fbField cw), by simp [decode, opField, hop, hlow, hwd], rfl⟩
  case mod =>
    obtain ⟨hop, hlow, hfb, -⟩ := h
    exact ⟨.mod (fdField cw) (faField cw) (fnField cw), by simp [decode, opField, hop, hlow, fbField, hfb], rfl⟩
  case modw =>
    obtain ⟨hop, hlow, hfb, hbit, -⟩ := h
    have hwa := wideField_faField_of_bit20 hbit
    exact ⟨.modw (fdField cw) (faField cw) (fnField cw), by simp [decode, opField, hop, hlow, fbField, hfb, hwa], rfl⟩
  case modexp =>
    obtain ⟨hop, hbits, hbit, -⟩ := h
    have hlen := toNat_bbitsField_lt_of_bit8 hbit
    exact ⟨.modexp (fdField cw) (faField cw) (fbField cw) (fnField cw) (addrField cw),
      by simp [decode, opField, hop, hbits, hlen], rfl⟩
  case modexp256 =>
    obtain ⟨hop, hbits, hlen, -⟩ := h
    exact ⟨.modexp256 (fdField cw) (faField cw) (fbField cw) (fnField cw),
      by simp [decode, opField, hop, hbits, bbitsField, hlen], rfl⟩
  case frombf =>
    obtain ⟨hop, hbits, -⟩ := h
    exact ⟨.frombf (fdField cw) (addrField cw) (lenField cw), by simp [decode, opField, hop, hbits], rfl⟩
  case frombv =>
    obtain ⟨hop, hbits, -⟩ := h
    exact ⟨.frombv (fdField cw) (addrField cw) (lenField cw), by simp [decode, opField, hop, hbits], rfl⟩
  case tob =>
    obtain ⟨hop, hbits, -⟩ := h
    exact ⟨.tob (fdField cw) (addrField cw), by simp [decode, opField, hop, hbits], rfl⟩

theorem mem_opcodeRows_iff {row : OpcodeRow} : row ∈ opcodeRows ↔ ∃ i, rowOf i = row := by
  refine ⟨fun h => ?_, ?_⟩
  · revert row
    simp [opcodeRows]
  · rintro ⟨i, rfl⟩
    cases i <;> simp [opcodeRows, rowOf]

/-- A word that a row admits decodes to a command of that row (R103). -/
theorem decode_of_admits {cw : CmdWord} {row : OpcodeRow} (hrow : row ∈ opcodeRows) (h : row.admits cw = true) :
    ∃ i, decode cw = .ok i ∧ rowOf i = row := by
  obtain ⟨i, rfl⟩ := mem_opcodeRows_iff.1 hrow
  exact decode_of_admits_rowOf h

/-- Settles O2: no word is in two rows, since it decodes to one command and that has one row. -/
theorem decodeAgreesWithOpcodeMap : Obligations.DecodeAgreesWithOpcodeMap := by
  refine ⟨fun _ _ => decode_of_admits, fun cw i h => ?_, ?_⟩
  · obtain ⟨rfl, hi⟩ := encode_of_decode h
    exact ⟨mem_opcodeRows_iff.2 ⟨i, rfl⟩, admits_encode hi⟩
  · have hnodup : opcodeRows.Nodup := by decide
    refine hnodup.imp_of_mem fun hp hq hne cw hboth => hne ?_
    obtain ⟨i, hi, rfl⟩ := decode_of_admits hp hboth.1
    obtain ⟨j, hj, rfl⟩ := decode_of_admits hq hboth.2
    rw [Except.ok.inj (hi.symm.trans hj)]

end Sys2Proof.Machine
end

section
/-! PROOF. Completions: an illegal word completes with code 4 alone (spec 30_encoding.md R108, R110),
every step answers a next state (R240, R280), and the sequence `MUL`, `MODW` of R113 is the modular product. -/

namespace Sys2Proof.Machine

/-! ## Illegal words (R108, R110, R246) -/

theorem engineComplete_of_illegal {s : State} (h : ∀ i, decode s.curCmd ≠ .ok i) :
    engineComplete s = .next (s.finish .illegal) := by
  unfold engineComplete
  split
  case h_1 i hi => exact absurd hi (h i)
  case h_2 => rfl

/-- Settles O4. -/
theorem illegalWordWritesOnlyCode4 : Obligations.IllegalWordWritesOnlyCode4 := fun s hturn hillegal =>
  ⟨_, (step_eq_engineComplete hturn).trans (engineComplete_of_illegal hillegal), wroteOnlyErr_finish s .illegal, rfl⟩

/-- `MUL` with a wide number of 4 or more completes as an illegal word does (assumption log 10). -/
theorem exec_mul_of_wide_ge {k : RegField} (hk : 4 ≤ k.toNat) (x y : RegField) (s : State) :
    exec (.mul k x y) s = .next (s.finish .illegal) := by
  rw [exec, execMul, wideNumber_of_ge hk, State.raiseFail]

/-- So does `MODW`. -/
theorem exec_modw_of_wide_ge {k : RegField} (hk : 4 ≤ k.toNat) (x y : RegField) (s : State) :
    exec (.modw x k y) s = .next (s.finish .illegal) := by
  rw [exec, execModw, wideNumber_of_ge hk, State.raiseFail]

/-- Settles O5. -/
theorem wideNumberAbove3IsIllegal : Obligations.WideNumberAbove3IsIllegal := by
  intro k x y s hk
  have hwide : wideField k = false := by simpa [wideField] using hk
  refine ⟨⟨.wideRegister k, ?_⟩, ⟨.wideRegister k, ?_⟩, ⟨_, exec_mul_of_wide_ge hk x y s, wroteOnlyErr_finish s _⟩,
    ⟨_, exec_modw_of_wide_ge hk x y s, wroteOnlyErr_finish s _⟩⟩
  · simp [encode, decode, Laws.OpcodeByte.opField_registerWord, hwide]
  · simp [encode, decode, Laws.OpcodeByte.opField_registerWord, hwide]

/-! ## No state stops the machine (R110, R240, R280) -/

theorem step_next (s : State) : ∃ t, step s = .next t := by
  rcases step_cases s with ⟨-, -, h⟩ | ⟨e, rest, -, -, h⟩ | ⟨e, rest, t, -, -, -, h⟩ | ⟨-, -, h⟩
  · exact ⟨_, h⟩
  · exact ⟨_, h⟩
  · exact ⟨_, h⟩
  · obtain ⟨t, ht, -⟩ := engineComplete_next s
    exact ⟨t, h.trans ht⟩

theorem safeFor_all (k : Nat) (s : State) : safeFor k s := by
  induction k generalizing s with
  | zero => trivial
  | succ k ih =>
    obtain ⟨t, ht⟩ := step_next s
    exact ⟨t, ht, ih t⟩

/-- Settles O8. -/
theorem noStepStopsTheMachine : Obligations.NoStepStopsTheMachine := ⟨step_next, safeFor_all⟩

/-! ## The modular product (R113, R163, R176) -/

/-- The product of two numbers of `w` bits has `2w` bits. -/
theorem toNat_ofNat_mul {w : Nat} (x y : BitVec w) : (BitVec.ofNat (w + w) (x.toNat * y.toNat)).toNat = x.toNat * y.toNat := by
  rw [BitVec.toNat_ofNat, pow_add, Nat.mod_eq_of_lt (Nat.mul_lt_mul'' x.isLt y.isLt)]

/-- The product is exact (R163). -/
theorem toNat_product (x y : Narrow) : (product x y).toNat = x.toNat * y.toNat := toNat_ofNat_mul x y

/-- A residue of a non-zero modulus fits a narrow register (R176). -/
theorem toNat_residue {w : Nat} (a : BitVec w) {n : Narrow} (hn : n ≠ 0) : (residue a n).toNat = a.toNat % n.toNat := by
  have hpos : 0 < n.toNat := Nat.pos_of_ne_zero fun h => hn (BitVec.eq_of_toNat_eq h)
  rw [residue, BitVec.toNat_ofNat, Nat.mod_eq_of_lt ((Nat.mod_lt _ hpos).trans n.isLt)]

/-- `MUL` into a wide register writes the product (R163). -/
theorem exec_mul {wd : RegField} (hwd : wd.toNat < 4) (ra rb : RegField) (s : State) :
    exec (.mul wd ra rb) s = .next ((s.writeW (wd.setWidth 2) (product (s.readN ra) (s.readN rb))).finish .ok) := by
  rw [exec, execMul, wideNumber_of_lt hwd]
  rfl

/-- `MODW` of a wide register with a non-zero modulus writes the residue (R176). -/
theorem exec_modw {wa : RegField} (hwa : wa.toNat < 4) (rd : RegField) {rn : RegField} {s : State} (hn : s.readN rn ≠ 0) :
    exec (.modw rd wa rn) s =
      .next ((s.writeN rd (residue (s.readW (wa.setWidth 2)) (s.readN rn))).finish .ok) := by
  rw [exec, execModw, wideNumber_of_lt hwa]
  exact if_neg hn

/-- Settles O22: `MODW` reads the product that `MUL` wrote, and the modulus and the product outlast the other's write. -/
theorem mulThenModwIsModularProduct : Obligations.MulThenModwIsModularProduct := by
  intro rd ra rb rn wt s hwt hn
  refine ⟨_, _, exec_mul hwt ra rb s, exec_modw hwt rd (by simpa using hn), rfl, ?_, ?_⟩
  · simp [toNat_residue _ hn, toNat_product]
  · simp [toNat_product]

end Sys2Proof.Machine
end

section
/-! PROOF. `ADD` and `SUB` (spec 40_addsub.md): each limb stage is exact (R141, R142), so the sum of the four stage equations
is exact too (R145, R147), and the round trip (R148) follows from the two sums. -/

namespace Sys2Proof.Machine

/-! ## The limb stages (R141, R142) -/

theorem toNat_adc64_carry (x y : Limb) (cin : Bool) :
    (adc64 x y cin).1.toNat = (x.toNat + y.toNat + cin.toNat) / 2 ^ 64 := by
  have hx := x.isLt
  have hy := y.isLt
  have hc := cin.toNat_le
  have hle : (x.toNat + y.toNat + cin.toNat) / 2 ^ 64 ≤ 1 := by omega
  rcases Nat.le_one_iff_eq_zero_or_eq_one.1 hle with h | h <;> simp only [adc64, h] <;> rfl

theorem toNat_adc64_sum (x y : Limb) (cin : Bool) :
    (adc64 x y cin).2.toNat = (x.toNat + y.toNat + cin.toNat) % 2 ^ 64 := by
  simp only [adc64, BitVec.toNat_ofNat, Nat.mod_mod]

theorem adc64_exact (x y : Limb) (cin : Bool) :
    x.toNat + y.toNat + cin.toNat = 2 ^ 64 * (adc64 x y cin).1.toNat + (adc64 x y cin).2.toNat := by
  rw [toNat_adc64_carry, toNat_adc64_sum, Nat.div_add_mod]

/-- Settles O51. -/
theorem adderStageIsExact : Obligations.AdderStageIsExact := fun x y cin =>
  ⟨adc64_exact x y cin, toNat_adc64_sum x y cin, toNat_adc64_carry x y cin⟩

theorem sbb64_borrow_iff (x y : Limb) (bin : Bool) : (sbb64 x y bin).1 = true ↔ x.toNat < y.toNat + bin.toNat := by
  simp only [sbb64, decide_eq_true_eq]

/-- The difference of a stage lies in the limb's range, whether the stage borrows or not. -/
theorem sbb64_exact (x y : Limb) (bin : Bool) :
    x.toNat + 2 ^ 64 * (sbb64 x y bin).1.toNat = y.toNat + bin.toNat + (sbb64 x y bin).2.toNat := by
  have hx := x.isLt
  have hy := y.isLt
  have hb := bin.toNat_le
  by_cases h : x.toNat < y.toNat + bin.toNat
  · simp only [sbb64, h, decide_true, Bool.toNat_true, BitVec.toNat_ofNat]
    omega
  · simp only [sbb64, h, decide_false, Bool.toNat_false, BitVec.toNat_ofNat]
    omega

/-- Settles O52. -/
theorem subtractorStageIsExact : Obligations.SubtractorStageIsExact := by
  intro x y bin
  have hexact := sbb64_exact x y bin
  have hborrow := sbb64_borrow_iff x y bin
  exact ⟨by omega, hborrow.trans (by omega)⟩

/-! ## The ripple chains (R140) -/

/-- A narrow value by its four limbs (R7). -/
theorem toNat_eq_four_limbs (v : Narrow) : v.toNat =
    (limb v 0).toNat + 2 ^ 64 * (limb v 1).toNat + 2 ^ 128 * (limb v 2).toNat + 2 ^ 192 * (limb v 3).toNat := by
  simpa [List.range_succ, Nat.add_assoc] using toNat_eq_sum_limbs (m := 4) v

/-- The stage equations of the adder, each weighted by its limb, add up to the whole sum: the carries between limbs
cancel. -/
theorem rippleAdd_exact (a b : Narrow) :
    (rippleAdd a b).val.2.toNat + 2 ^ 256 * (rippleAdd a b).val.1.toNat = a.toNat + b.toNat := by
  simp only [rippleAdd, adcStage, Traced.bind, Traced.map, Traced.op]
  rw [toNat_natOfLimbs, toNat_eq_four_limbs a, toNat_eq_four_limbs b]
  generalize h0 : adc64 (limb a 0) (limb b 0) false = s0
  generalize h1 : adc64 (limb a 1) (limb b 1) s0.1 = s1
  generalize h2 : adc64 (limb a 2) (limb b 2) s1.1 = s2
  generalize h3 : adc64 (limb a 3) (limb b 3) s2.1 = s3
  have e0 := h0 ▸ adc64_exact (limb a 0) (limb b 0) false
  have e1 := h1 ▸ adc64_exact (limb a 1) (limb b 1) s0.1
  have e2 := h2 ▸ adc64_exact (limb a 2) (limb b 2) s1.1
  have e3 := h3 ▸ adc64_exact (limb a 3) (limb b 3) s2.1
  rw [Bool.toNat_false] at e0
  omega

/-- The stage equations of the subtractor add up in the same way: the borrows between limbs cancel. -/
theorem rippleSub_exact (a b : Narrow) :
    a.toNat + 2 ^ 256 * (rippleSub a b).val.1.toNat = b.toNat + (rippleSub a b).val.2.toNat := by
  simp only [rippleSub, sbbStage, Traced.bind, Traced.map, Traced.op]
  rw [toNat_natOfLimbs, toNat_eq_four_limbs a, toNat_eq_four_limbs b]
  generalize h0 : sbb64 (limb a 0) (limb b 0) false = d0
  generalize h1 : sbb64 (limb a 1) (limb b 1) d0.1 = d1
  generalize h2 : sbb64 (limb a 2) (limb b 2) d1.1 = d2
  generalize h3 : sbb64 (limb a 3) (limb b 3) d2.1 = d3
  have e0 := h0 ▸ sbb64_exact (limb a 0) (limb b 0) false
  have e1 := h1 ▸ sbb64_exact (limb a 1) (limb b 1) d0.1
  have e2 := h2 ▸ sbb64_exact (limb a 2) (limb b 2) d1.1
  have e3 := h3 ▸ sbb64_exact (limb a 3) (limb b 3) d2.1
  rw [Bool.toNat_false] at e0
  omega

theorem rippleAdd_comm (a b : Narrow) : rippleAdd a b = rippleAdd b a := by
  have hstage (j : Nat) (cin : Bool) : adcStage a b j cin = adcStage b a j cin := by
    simp only [adcStage, adc64, Nat.add_comm (limb a j).toNat]
  simp only [rippleAdd, hstage]

/-- A borrow and a difference are determined by their equation: below `2^256` no other pair satisfies it. -/
theorem rippleSub_val_eq {a b v : Narrow} {c : Bool} (h : a.toNat + 2 ^ 256 * c.toNat = b.toNat + v.toNat) :
    (rippleSub a b).val = (c, v) := by
  have hexact := rippleSub_exact a b
  have hd := (rippleSub a b).val.2.isLt
  have hv := v.isLt
  have hborrow : (rippleSub a b).val.1.toNat = c.toNat := by omega
  have hdiff : (rippleSub a b).val.2.toNat = v.toNat := by omega
  exact Prod.ext (Function.LeftInverse.injective Bool.ofNat_toNat hborrow) (BitVec.eq_of_toNat_eq hdiff)

/-- The borrow of the chain is the comparison of the numbers (R147). -/
theorem rippleSub_borrow_iff (a b : Narrow) : (rippleSub a b).val.1 = true ↔ a.toNat < b.toNat := by
  have hexact := rippleSub_exact a b
  have hd := (rippleSub a b).val.2.isLt
  have ha := a.isLt
  rw [← Bool.toNat_eq_one]
  omega

/-! ## The commands (R144, R146) -/

/-- What `ADD` and `SUB` share: the state once a narrow register and `FLAGS.C` are written and the command has ended. -/
def writeCarryDone (s : State) (rd : RegField) (r : Bool × Narrow) : State := ((s.writeN rd r.2).setC r.1).finish .ok

theorem exec_add (rd ra rb : RegField) (s : State) :
    exec (.add rd ra rb) s = .next (writeCarryDone s rd (rippleAdd (s.readN ra) (s.readN rb)).val) := rfl

theorem exec_sub (rd ra rb : RegField) (s : State) :
    exec (.sub rd ra rb) s = .next (writeCarryDone s rd (rippleSub (s.readN ra) (s.readN rb)).val) := rfl

section WriteCarryDone
variable (s : State) (rd : RegField) (r : Bool × Narrow)

@[simp] theorem writeCarryDone_readN_self : (writeCarryDone s rd r).readN rd = r.2 := by simp [writeCarryDone]

@[simp] theorem writeCarryDone_flagC : (writeCarryDone s rd r).flagC = r.1 := rfl

theorem writeCarryDone_completed : Completed (writeCarryDone s rd r) .ok := completed_finish _ _

theorem writeCarryDone_readN_of_ne {i : RegField} (h : i ≠ rd) : (writeCarryDone s rd r).readN i = s.readN i :=
  s.readN_writeN_of_ne r.2 h

theorem writeCarryDone_frame : SameNarrowBut rd s (writeCarryDone s rd r) ∧ SameWide s (writeCarryDone s rd r) ∧
    SameBuf s (writeCarryDone s rd r) ∧ (writeCarryDone s rd r).flagLT = s.flagLT :=
  ⟨fun _ => writeCarryDone_readN_of_ne s rd r, fun _ => rfl, fun _ => rfl, rfl⟩

end WriteCarryDone

/-- Settles O12: the exact sum fixes the quotient and the residue by `2^256`. -/
theorem addIsExactSum : Obligations.AddIsExactSum := by
  intro rd ra rb s
  have hcomm : exec (.add rd ra rb) s = exec (.add rd rb ra) s := by rw [exec_add, exec_add, rippleAdd_comm]
  refine ⟨hcomm, _, exec_add rd ra rb s, writeCarryDone_completed s rd _, ?_⟩
  rw [writeCarryDone_readN_self, writeCarryDone_flagC]
  have hexact := rippleAdd_exact (s.readN ra) (s.readN rb)
  have hlt := (rippleAdd (s.readN ra) (s.readN rb)).val.2.isLt
  exact ⟨by omega, by omega, hexact, writeCarryDone_frame s rd _⟩

/-- Settles O13: the chain's equation, read with the borrow set and with it clear. -/
theorem subIsExactDifference : Obligations.SubIsExactDifference := by
  intro rd ra rb s
  refine ⟨_, exec_sub rd ra rb s, writeCarryDone_completed s rd _, ?_⟩
  rw [writeCarryDone_readN_self, writeCarryDone_flagC]
  have hexact := rippleSub_exact (s.readN ra) (s.readN rb)
  have hborrow := rippleSub_borrow_iff (s.readN ra) (s.readN rb)
  refine ⟨fun hge => ?_, fun hlt => ?_, by omega, writeCarryDone_frame s rd _⟩
  · have hclear := Bool.eq_false_iff.2 (mt hborrow.1 hge.not_gt)
    rw [hclear, Bool.toNat_false] at hexact
    exact ⟨by omega, hclear⟩
  · have hset := hborrow.2 hlt
    rw [hset, Bool.toNat_true] at hexact
    exact ⟨by omega, hset⟩

/-! ## The round trip (R148) -/

/-- Subtracting `b` from the sum gives `a` back, with the sum's carry for a borrow. -/
theorem rippleSub_rippleAdd (a b : Narrow) : (rippleSub (rippleAdd a b).val.2 b).val = ((rippleAdd a b).val.1, a) :=
  rippleSub_val_eq ((rippleAdd_exact a b).trans (Nat.add_comm _ _))

theorem rippleSub_self (a : Narrow) : (rippleSub a a).val = (false, 0) := rippleSub_val_eq rfl

/-- Settles O14: `SUB` reads `b` as `ADD` left it, and where `ADD` wrote over it, one register twice. -/
theorem addThenSubRecovers : Obligations.AddThenSubRecovers := by
  intro x u ra rb s
  refine ⟨_, _, exec_add x ra rb s, exec_sub u x rb _, fun hne => ?_, fun heq => ?_⟩
  · rw [writeCarryDone_readN_self s x, writeCarryDone_readN_of_ne s x _ hne.symm, rippleSub_rippleAdd]
    exact ⟨writeCarryDone_readN_self .., rfl⟩
  · subst heq
    rw [rippleSub_self]
    exact ⟨writeCarryDone_readN_self .., rfl⟩

end Sys2Proof.Machine
end

section
/-! PROOF. The multiplier (spec 41_mul.md): the multiply-accumulate step is exact (R161), so a pass of the schoolbook loop adds
one row of limb products, and four passes make the exact product (R162, R163), which is what `MUL` writes. -/

namespace Sys2Proof.Machine

/-! ## The value of a traced computation (R277) -/

section Traced
variable {α β : Type}

@[simp] theorem Traced.val_pure (x : α) : (Traced.pure x).val = x := rfl

@[simp] theorem Traced.val_op (o : MicroOp) (x : α) : (Traced.op o x).val = x := rfl

@[simp] theorem Traced.val_bind (x : Traced α) (f : α → Traced β) : (x.bind f).val = (f x.val).val := rfl

@[simp] theorem Traced.val_map (f : α → β) (x : Traced α) : (x.map f).val = f x.val := rfl

end Traced

/-! ## The multiply-accumulate step (R161) -/

theorem mac64_sum_le (x y acc cin : Limb) : x.toNat * y.toNat + acc.toNat + cin.toNat ≤ 2 ^ 128 - 1 := by
  have hxy : x.toNat * y.toNat ≤ (2 ^ 64 - 1) * (2 ^ 64 - 1) :=
    Nat.mul_le_mul (Nat.le_pred_of_lt x.isLt) (Nat.le_pred_of_lt y.isLt)
  have hacc := acc.isLt
  have hcin := cin.isLt
  omega

/-- Below `2^128` the quotient and the remainder by `2^64` both fit a limb. -/
theorem mac64_exact (x y acc cin : Limb) : x.toNat * y.toNat + acc.toNat + cin.toNat =
    2 ^ 64 * (mac64 x y acc cin).1.toNat + (mac64 x y acc cin).2.toNat := by
  have hle := mac64_sum_le x y acc cin
  simp only [mac64, BitVec.toNat_ofNat]
  omega

/-- Settles O53. -/
theorem multiplyAccumulateIsExact : Obligations.MultiplyAccumulateIsExact := fun x y acc cin =>
  ⟨mac64_sum_le x y acc cin, mac64_exact x y acc cin⟩

/-! ## Limbs as digits to the base `2^64` (R7) -/

/-- A write of limb `j` trades the old limb for the new one in the value. -/
theorem toNat_setLimb {m : Nat} (v : BitVec (64 * m)) {j : Nat} (d : Limb) (hj : j < m) :
    (setLimb v j d).toNat + 2 ^ (64 * j) * (limb v j).toNat = v.toNat + 2 ^ (64 * j) * d.toNat := by
  obtain ⟨hself, hothers⟩ := limbs_setLimb v d hj
  have hsum (u : BitVec (64 * m)) : u.toNat = 2 ^ (64 * j) * (limb u j).toNat +
      ∑ l ∈ (Finset.range m).erase j, 2 ^ (64 * l) * (limb u l).toNat :=
    (toNat_eq_sum_limbs u).trans (Finset.add_sum_erase _ _ (Finset.mem_range.2 hj)).symm
  have hrest : ∑ l ∈ (Finset.range m).erase j, 2 ^ (64 * l) * (limb (setLimb v j d) l).toNat =
      ∑ l ∈ (Finset.range m).erase j, 2 ^ (64 * l) * (limb v l).toNat := by
    refine Finset.sum_congr rfl fun l hl => ?_
    obtain ⟨hne, hmem⟩ := Finset.mem_erase.1 hl
    rw [hothers l (Finset.mem_range.1 hmem) hne]
  rw [hsum (setLimb v j d), hsum v, hself, hrest]
  omega

/-- One limb more is one digit more. -/
theorem mod_limbs_succ {n : Nat} (v : BitVec n) (m : Nat) :
    v.toNat % 2 ^ (64 * (m + 1)) = v.toNat % 2 ^ (64 * m) + 2 ^ (64 * m) * (limb v m).toNat := by
  rw [toNat_limb, Nat.mul_succ, Nat.pow_add, Nat.mod_mul]

/-- Limb `m` of a value below its weight is zero. -/
theorem limb_eq_zero_of_lt {n : Nat} {v : BitVec n} {m : Nat} (h : v.toNat < 2 ^ (64 * m)) : limb v m = 0 := by
  apply BitVec.eq_of_toNat_eq
  rw [toNat_limb, Nat.div_eq_of_lt h]
  rfl

/-! ## One pass of the schoolbook loop (R162) -/

section Pass
variable {a b : Narrow} {i j : Nat} {p : Wide} {t : Wide × Limb}

/-- Pass `i` after the products with the `j` lowest limbs of `b`, for `t` the accumulator and the carry: together they are
the accumulator `p` that the pass began with and those products, and the limb that will take the carry is as it was. -/
structure RowInv (a b : Narrow) (i : Nat) (p : Wide) (j : Nat) (t : Wide × Limb) : Prop where
  sum : t.1.toNat + 2 ^ (64 * (i + j)) * t.2.toNat =
    p.toNat + 2 ^ (64 * i) * ((limb a i).toNat * (b.toNat % 2 ^ (64 * j)))
  carryLimb : limb t.1 (i + 4) = limb p (i + 4)

theorem rowInv_start (a b : Narrow) (i : Nat) (p : Wide) : RowInv a b i p 0 (p, 0) :=
  ⟨by simp [Nat.mod_one], rfl⟩

/-- The equation of the stage and that of the limb it writes add up: the limb read and the carry in cancel. -/
theorem RowInv.succ (hi : i < 4) (hj : j < 4) (h : RowInv a b i p j t) : RowInv a b i p (j + 1) (macStage a b i j t).val := by
  obtain ⟨hsum, hcarry⟩ := h
  have hij : i + j < 8 := by omega
  refine ⟨?_, ?_⟩
  · simp only [macStage, Traced.val_op]
    have hmac := mac64_exact (limb a i) (limb b j) (limb t.1 (i + j)) t.2
    have hset := toNat_setLimb (m := 8) t.1 (mac64 (limb a i) (limb b j) (limb t.1 (i + j)) t.2).2 hij
    rw [mod_limbs_succ, ← Nat.add_assoc, Nat.mul_succ, pow_add]
    linear_combination hset + 2 ^ (64 * (i + j)) * hmac.symm + hsum
  · obtain ⟨-, hothers⟩ := limbs_setLimb (m := 8) t.1 _ hij
    exact (hothers (i + 4) (by omega) (by omega)).trans hcarry

/-- The end of a pass: the carry goes into a limb that held zero. -/
theorem RowInv.toNat_setLimb_carry (hi : i < 4) (hzero : limb p (i + 4) = 0) (h : RowInv a b i p 4 t) :
    (setLimb t.1 (i + 4) t.2).toNat = p.toNat + 2 ^ (64 * i) * ((limb a i).toNat * b.toNat) := by
  obtain ⟨hsum, hcarry⟩ := h
  rw [Nat.mod_eq_of_lt b.isLt] at hsum
  have hset := toNat_setLimb (m := 8) t.1 t.2 (show i + 4 < 8 by omega)
  rw [hcarry, hzero] at hset
  exact hset.trans hsum

/-- Pass `i` turns the product of `b` with the `i` lowest limbs of `a` into that with one limb more. -/
theorem macPass_exact (hi : i < 4) (hp : p.toNat = a.toNat % 2 ^ (64 * i) * b.toNat) :
    (macPass a b i p).val.toNat = a.toNat % 2 ^ (64 * (i + 1)) * b.toNat := by
  have hlt : p.toNat < 2 ^ (64 * (i + 4)) := by
    rw [hp, Nat.mul_add, pow_add]
    exact Nat.mul_lt_mul'' (Nat.mod_lt _ (Nat.two_pow_pos _)) b.isLt
  have row1 := (rowInv_start a b i p).succ hi (by decide)
  have row2 := row1.succ hi (by decide)
  have row3 := row2.succ hi (by decide)
  have row4 := row3.succ hi (by decide)
  calc (macPass a b i p).val.toNat
    _ = p.toNat + 2 ^ (64 * i) * ((limb a i).toNat * b.toNat) := row4.toNat_setLimb_carry hi (limb_eq_zero_of_lt hlt)
    _ = a.toNat % 2 ^ (64 * (i + 1)) * b.toNat := by rw [mod_limbs_succ, hp]; ring

end Pass

/-! ## The product (R162, R163) -/

/-- Settles O48: each pass takes in one limb of `a`, and `a` has four. -/
theorem schoolbookIsExact : Obligations.SchoolbookIsExact := by
  intro a b
  have pass0 : (0 : Wide).toNat = a.toNat % 2 ^ (64 * 0) * b.toNat := by
    rw [Nat.mul_zero, pow_zero, Nat.mod_one, Nat.zero_mul]
    exact BitVec.toNat_zero
  have pass1 := macPass_exact (by decide) pass0
  have pass2 := macPass_exact (by decide) pass1
  have pass3 := macPass_exact (by decide) pass2
  have pass4 := macPass_exact (by decide) pass3
  rwa [Nat.mod_eq_of_lt a.isLt] at pass4

theorem schoolbook_val (a b : Narrow) : (schoolbook a b).val = product a b :=
  BitVec.eq_of_toNat_eq ((schoolbookIsExact a b).trans (toNat_product a b).symm)

theorem product_comm (x y : Narrow) : product x y = product y x := by rw [product, product, Nat.mul_comm]

theorem toNat_product_le (x y : Narrow) : (product x y).toNat ≤ 2 ^ 512 - 2 ^ 257 + 1 := by
  rw [toNat_product]
  calc x.toNat * y.toNat
    _ ≤ (2 ^ 256 - 1) * (2 ^ 256 - 1) := Nat.mul_le_mul (Nat.le_pred_of_lt x.isLt) (Nat.le_pred_of_lt y.isLt)
    _ = 2 ^ 512 - 2 ^ 257 + 1 := by rw [pow_add 2 256 256, pow_succ 2 256]; norm_num

/-- Settles O17. -/
theorem mulIsExactProduct : Obligations.MulIsExactProduct := by
  intro wd ra rb s hwd
  have hcomm : exec (.mul wd ra rb) s = exec (.mul wd rb ra) s := by rw [exec_mul hwd, exec_mul hwd, product_comm]
  refine ⟨hcomm, _, exec_mul hwd ra rb s, completed_finish _ _, ?_⟩
  rw [State.finish_readW, State.readW_writeW_self]
  exact ⟨toNat_product _ _, toNat_product_le _ _, fun k hk => s.readW_writeW_of_ne _ hk, fun _ => rfl, fun _ => rfl,
    rfl, rfl⟩

end Sys2Proof.Machine
end

section
/-! PROOF. The reference datapaths compute what `exec` computes (spec 41_mul.md R164, 42_mod.md R178, 43_modexp.md R202): the
division loop gives the residue by the invariant of R175, and with the exact product the controller over the datapaths goes
through the accumulators of the controller over the values. -/

namespace Sys2Proof.Machine

/-! ## The reduction engine (R174, R175) -/

theorem toNat_getLsbD {w : Nat} (x : BitVec w) (i : Nat) : (x.getLsbD i).toNat = x.toNat / 2 ^ i % 2 := by
  rw [BitVec.getLsbD, Nat.toNat_testBit]

theorem toNat_ofNat_succ {w x : Nat} (h : x < 2 * 2 ^ w) : (BitVec.ofNat (w + 1) x).toNat = x := by
  rw [BitVec.toNat_ofNat, Nat.mod_eq_of_lt (by rwa [Nat.pow_succ'])]

theorem topStage_exact (x bin : Bool) :
    x.toNat + 2 * (topStage x bin).val.1.toNat = bin.toNat + (topStage x bin).val.2.toNat := by
  cases x <;> cases bin <;> rfl

/-- The equation of the four limb stages and that of the fifth add up: the borrow between them cancels. -/
theorem sub257_exact (x : BitVec 257) (n : Narrow) :
    x.toNat + 2 ^ 257 * (sub257 x n).val.1.toNat = n.toNat + (sub257 x n).val.2.toNat := by
  have hlow := rippleSub_exact (x.setWidth 256) n
  simp only [sub257, Traced.val_bind, Traced.val_map]
  generalize (rippleSub (x.setWidth 256) n).val = d at *
  have htop := topStage_exact (x.getLsbD 256) d.1
  generalize (topStage (x.getLsbD 256) d.1).val = t at *
  rw [BitVec.toNat_setWidth] at hlow
  rw [toNat_getLsbD] at htop
  have hx := x.isLt
  have hd := d.2.isLt
  have ht := t.2.toNat_le
  rw [toNat_ofNat_succ (w := 256) (by omega)]
  omega

/-- From a remainder below the modulus, one iteration takes in the next bit and reduces: at most one subtraction is due, and
the borrow says whether. -/
theorem reduceIteration_exact {n : Narrow} {rem : BitVec 257} (bit : Bool) (i : Nat) (h : rem.toNat < n.toNat) :
    (reduceIteration bit i n rem).val.toNat = (2 * rem.toNat + bit.toNat) % n.toNat := by
  have hbit := bit.toNat_le
  have hn := n.isLt
  have hshift : (BitVec.ofNat 257 (2 * rem.toNat + bit.toNat)).toNat = 2 * rem.toNat + bit.toNat :=
    toNat_ofNat_succ (w := 256) (by omega)
  simp only [reduceIteration, Traced.val_bind, Traced.val_op]
  generalize BitVec.ofNat 257 (2 * rem.toNat + bit.toNat) = x at *
  have hsub := sub257_exact x n
  have hdiff := (sub257 x n).val.2.isLt
  rw [← hshift]
  cases hborrow : (sub257 x n).val.1 with
  | true =>
    rw [hborrow, Bool.toNat_true] at hsub
    rw [Bool.not_true, ctSelect_false, Nat.mod_eq_of_lt (by omega)]
  | false =>
    rw [hborrow, Bool.toNat_false] at hsub
    rw [Bool.not_false, ctSelect_true, Nat.mod_eq_sub_mod (by omega), Nat.mod_eq_of_lt (by omega)]
    omega

theorem div_two_pow_eq_bit {w : Nat} (a : BitVec w) (k : Nat) :
    a.toNat / 2 ^ k = 2 * (a.toNat / 2 ^ (k + 1)) + (a.getLsbD k).toNat := by
  rw [toNat_getLsbD, pow_succ, ← Nat.div_div_eq_div_mul, Nat.div_add_mod]

/-- The invariant of R175: with `k` bits to go the remainder is that of the bits taken in so far. -/
theorem reduceLoop_exact {w : Nat} (a : BitVec w) {n : Narrow} (hn : 0 < n.toNat) {k : Nat} {rem : BitVec 257}
    (h : rem.toNat = a.toNat / 2 ^ k % n.toNat) : (reduceLoop a n k rem).val.toNat = a.toNat % n.toNat := by
  induction k generalizing rem with
  | zero => simpa [reduceLoop] using h
  | succ k ih =>
    refine ih ?_
    rw [reduceIteration_exact _ _ (h ▸ Nat.mod_lt _ hn), div_two_pow_eq_bit a k, h]
    simp [Nat.add_mod, Nat.mul_mod]

theorem reduce_val {w : Nat} (a : BitVec w) {n : Narrow} (hn : n ≠ 0) : (reduce a n).val = residue a n := by
  have hpos : 0 < n.toNat := Nat.pos_of_ne_zero fun h => hn (BitVec.eq_of_toNat_eq h)
  have hstart : (0 : BitVec 257).toNat = a.toNat / 2 ^ w % n.toNat := by
    rw [Nat.div_eq_of_lt a.isLt, Nat.zero_mod]
    exact BitVec.toNat_zero
  apply BitVec.eq_of_toNat_eq
  rw [reduce, Traced.val_map, BitVec.toNat_setWidth, reduceLoop_exact a hpos hstart, residue, BitVec.toNat_ofNat]

theorem modmul_val (x y : Narrow) {n : Narrow} (hn : n ≠ 0) : (modmul x y n).val = residue (product x y) n := by
  rw [modmul, Traced.val_bind, schoolbook_val, reduce_val _ hn]

/-! ## The exponentiation controller (R197) -/

section Controller
variable (a b n : Narrow) (h : Hidden)

@[simp] theorem mxSquare_mxSq : (mxSquare n h).mxSq = residue (product h.mxAcc h.mxAcc) n := rfl

@[simp] theorem mxSquare_mxI : (mxSquare n h).mxI = h.mxI := rfl

@[simp] theorem mxMultiply_mxT : (mxMultiply a n h).mxT = residue (product h.mxSq a) n := rfl

@[simp] theorem mxMultiply_mxSq : (mxMultiply a n h).mxSq = h.mxSq := rfl

@[simp] theorem mxMultiply_mxI : (mxMultiply a n h).mxI = h.mxI := rfl

@[simp] theorem mxChoose_mxAcc : (mxChoose b h).mxAcc = ctSelect (b.getLsbD h.mxI.toNat) h.mxT h.mxSq := rfl

@[simp] theorem mxIteration_mxI : (mxIteration a b n h).mxI = h.mxI - 1 := rfl

end Controller

/-- One iteration by values and one on the datapaths leave the same accumulator. -/
theorem mxIteration_mxAcc (a b : Narrow) {n : Narrow} (hn : n ≠ 0) (h : Hidden) :
    (mxIteration a b n h).mxAcc = (expIteration a b n (h.mxI - 1).toNat h.mxAcc).val := by
  rw [mxIteration, mxChoose_mxAcc, mxMultiply_mxT, mxMultiply_mxSq, mxMultiply_mxI, mxSquare_mxI, mxSquare_mxSq,
    expIteration, Traced.val_bind, Traced.val_bind, Traced.val_op, modmul_val _ _ hn, modmul_val _ _ hn]

/-- The two loops scan the same bits when the index holds the number of iterations to come. -/
theorem mxLoop_mxAcc (a b : Narrow) {n : Narrow} (hn : n ≠ 0) {k : Nat} {h : Hidden} (hk : h.mxI.toNat = k) :
    (mxLoop a b n k h).mxAcc = (expLoop a b n k h.mxAcc).val := by
  induction k generalizing h with
  | zero => rfl
  | succ k ih =>
    have hdown : (h.mxI - 1).toNat = k := by bv_omega
    have hindex : (mxIteration a b n h).mxI.toNat = k := by rw [mxIteration_mxI, hdown]
    rw [mxLoop, expLoop, Traced.val_bind, ih hindex, mxIteration_mxAcc a b hn, hdown]

/-- The index has nine bits, so it holds every bit length up to 256 (R197). -/
theorem expRun_val (a b : Narrow) {n : Narrow} (hn : n ≠ 0) {k : Nat} (hk : k ≤ 256) (h : Hidden) :
    (expRun a b n k).val = mxRun a b n k h := by
  have hindex : (mxInit n k h).mxI.toNat = k := by rw [mxInit, BitVec.toNat_ofNat, Nat.mod_eq_of_lt (by omega)]
  rw [mxRun, mxLoop_mxAcc a b hn hindex, expRun, Traced.val_bind, reduce_val _ hn]
  rfl

/-! ## The commands (R164, R178, R202) -/

theorem reduceIntoTraced_val {w : Nat} (rd : RegField) (a : BitVec w) (n : Narrow) (s : State) :
    (reduceIntoTraced rd a n s).val = reduceInto rd a n s := by
  rw [reduceIntoTraced, Traced.val_bind, Traced.val_op]
  rcases reduceInto_cases rd a n s with ⟨hzero, h⟩ | ⟨hn, h⟩
  · rw [h, if_pos (decide_eq_true hzero)]
    rfl
  · rw [h, if_neg (by simpa using hn), Traced.val_map, reduce_val a hn]
    rfl

theorem modexpTraced_val (rd ra rb rn : RegField) {k : Nat} (hk : k ≤ 256) (s : State) :
    (modexpTraced rd ra rb rn k s).val = modexpInto rd ra rb rn k s := by
  rw [modexpTraced, Traced.val_bind, Traced.val_op]
  rcases modexpInto_cases rd ra rb rn k s with ⟨hzero, h⟩ | ⟨hn, hrange, h⟩ | ⟨hn, hless, h⟩
  · rw [h, if_pos (decide_eq_true hzero)]
    rfl
  · rw [borrowLess] at hrange
    rw [h, if_neg (by simpa using hn), Traced.val_bind, if_neg (Bool.eq_false_iff.1 hrange)]
    rfl
  · rw [borrowLess] at hless
    rw [h, if_neg (by simpa using hn), Traced.val_bind, if_pos hless, Traced.val_map, expRun_val _ _ hn hk s.hidden]
    rfl

theorem parseTraced_val (rd : RegField) (addr len : Nat) (s : State) :
    (parseTraced rd addr len s).val = parseInto rd addr len s := by
  unfold parseTraced
  split
  · rfl
  · rename_i hout
    rw [parseInto, if_neg hout]
    rfl

/-- Settles O47: `ADD`, `SUB` and `LT` run the same chains in both; every other command goes through the value of its
datapath. -/
theorem referenceDatapathsRefineExec : Obligations.ReferenceDatapathsRefineExec := by
  intro i s
  cases i with
  | add rd ra rb => rfl
  | sub rd ra rb => rfl
  | lt ra rb => rfl
  | mul wd ra rb =>
    simp only [execTraced, exec, execMul]
    cases wideNumber wd with
    | none => rfl
    | some k => rw [Traced.val_map, schoolbook_val]
  | mod rd ra rn => exact reduceIntoTraced_val rd (s.readN ra) (s.readN rn) s
  | modw rd wa rn =>
    simp only [execTraced, exec, execModw]
    cases wideNumber wa with
    | none => rfl
    | some k => exact reduceIntoTraced_val rd (s.readW k) (s.readN rn) s
  | modexp rd ra rb rn bbits => exact modexpTraced_val rd ra rb rn bbits.isLt.le s
  | modexp256 rd ra rb rn => exact modexpTraced_val rd ra rb rn le_rfl s
  | frombf rd addr len =>
    simp only [execTraced, exec, execFrombf]
    split
    · exact parseTraced_val rd addr.toNat 32 s
    · rfl
  | frombv rd addr len =>
    simp only [execTraced, exec, execFrombv]
    split
    · exact parseTraced_val rd addr.toNat len.toNat s
    · rfl
  | tob rs addr =>
    simp only [execTraced, exec]
    split
    · rfl
    · rename_i hout
      rw [execTob, if_neg hout]
      rfl

end Sys2Proof.Machine
end

section
/-! PROOF. `MOD` and `MODW` (spec 42_mod.md): the division loop is exact (R174, R175), and both commands are one rule over a
dividend of any width, which writes the residue (R176) or fails for a zero modulus (R177). -/

namespace Sys2Proof.Machine

/-! ## The residue (R176) -/

/-- Settles O49: the loop gives the residue, which a narrow register holds. -/
theorem reductionIsExact : Obligations.ReductionIsExact := by
  intro w a n hn
  rw [reduce_val a hn, toNat_residue a hn]

/-- Below the modulus only the residue differs from the dividend by a multiple of it. -/
theorem dvd_sub_iff_eq_mod {a n v : Nat} (hv : v < n) : (n : Int) ∣ (a : Int) - v ↔ v = a % n := by
  rw [← Nat.modEq_iff_dvd, Nat.ModEq, Nat.mod_eq_of_lt hv]

theorem residue_setWidth {w v : Nat} (h : w ≤ v) (a : BitVec w) (n : Narrow) : residue (a.setWidth v) n = residue a n := by
  rw [residue, residue, BitVec.toNat_setWidth_of_le h]

/-! ## The shared rule (R172, R173) -/

/-- A non-zero modulus: the residue is written, and nothing else changes (R176). -/
theorem reduceInto_writes_residue {w : Nat} (rd : RegField) (a : BitVec w) {n : Narrow} (hn : n ≠ 0) (s : State) :
    ∃ t, reduceInto rd a n s = .next t ∧ Completed t .ok ∧
      (t.readN rd).toNat = a.toNat % n.toNat ∧ (t.readN rd).toNat < n.toNat ∧
      (∀ v : Nat, v < n.toNat → ((n.toNat : Int) ∣ a.toNat - v ↔ v = (t.readN rd).toNat)) ∧
      SameNarrowBut rd s t ∧ SameWide s t ∧ SameBuf s t ∧ SameFlags s t := by
  have hpos : 0 < n.toNat := Nat.pos_of_ne_zero fun h => hn (BitVec.eq_of_toNat_eq h)
  refine ⟨_, if_neg hn, completed_finish _ _, ?_⟩
  rw [State.finish_readN, State.readN_writeN_self, toNat_residue a hn]
  exact ⟨rfl, Nat.mod_lt _ hpos, fun v hv => dvd_sub_iff_eq_mod hv, fun i hi => s.readN_writeN_of_ne _ hi,
    fun _ => rfl, fun _ => rfl, rfl, rfl⟩

/-- A zero modulus: code 1 and no other change, whatever the dividend (R177). -/
theorem reduceInto_zero_modulus {w : Nat} (rd : RegField) (a : BitVec w) {n : Narrow} (hn : n = 0) (s : State) :
    ∃ t, reduceInto rd a n s = .next t ∧ WroteOnlyErr s t .zeroModulus ∧ (errBits t.err).toNat = 1 :=
  ⟨_, if_pos hn, wroteOnlyErr_finish s .zeroModulus, rfl⟩

/-- The rule does not see leading zeros of the dividend. -/
theorem reduceInto_setWidth {w v : Nat} (h : w ≤ v) (rd : RegField) (a : BitVec w) (n : Narrow) (s : State) :
    reduceInto rd (a.setWidth v) n s = reduceInto rd a n s := by
  rw [reduceInto, reduceInto, residue_setWidth h]

theorem exec_mod_eq_reduceInto (rd ra rn : RegField) (s : State) :
    exec (.mod rd ra rn) s = reduceInto rd (s.readN ra) (s.readN rn) s := rfl

theorem exec_modw_eq_reduceInto {wa : RegField} (hwa : wa.toNat < 4) (rd rn : RegField) (s : State) :
    exec (.modw rd wa rn) s = reduceInto rd (s.readW (wa.setWidth 2)) (s.readN rn) s := by
  rw [exec, execModw, wideNumber_of_lt hwa]

/-! ## The commands (R176, R177) -/

/-- Settles O18: the shared rule, at the width of either dividend. -/
theorem modAndModwAreResidues : Obligations.ModAndModwAreResidues := by
  refine ⟨fun rd ra rn s hn => ?_, fun rd wa rn s hwa hn => ?_, fun rd ra wa rn s hwa hext => ?_⟩
  · rw [exec_mod_eq_reduceInto]
    exact reduceInto_writes_residue rd _ hn s
  · rw [exec_modw_eq_reduceInto hwa]
    exact reduceInto_writes_residue rd _ hn s
  · rw [exec_mod_eq_reduceInto, exec_modw_eq_reduceInto hwa, hext, reduceInto_setWidth (by decide)]

/-- Settles O19: the shared rule tests the modulus before it looks at the dividend. -/
theorem zeroModulusWritesOnlyCode1 : Obligations.ZeroModulusWritesOnlyCode1 := by
  intro rd rn s hn
  refine ⟨fun ra => ?_, fun wa hwa => ?_⟩
  · rw [exec_mod_eq_reduceInto]
    exact reduceInto_zero_modulus rd _ hn s
  · rw [exec_modw_eq_reduceInto hwa]
    exact reduceInto_zero_modulus rd _ hn s

end Sys2Proof.Machine
end

section
/-! PROOF. `MODEXP` (spec 43_modexp.md): the controller returns the power by the invariant of R198, both rows are one rule that
checks the modulus before the base (R194), and the trace is a function of the bit length (R199). -/

namespace Sys2Proof.Machine

/-! ## The exponent bits taken in (R191, R198) -/

theorem effectiveExponent_div_two_pow_self (b : Narrow) (m : Nat) : effectiveExponent b m / 2 ^ m = 0 :=
  Nat.div_eq_of_lt (Nat.mod_lt _ (Nat.two_pow_pos m))

/-- Below the bit length, bit `k` of `b` is the digit that the scan adds to the exponent taken in so far. -/
theorem effectiveExponent_div_two_pow (b : Narrow) {k m : Nat} (hk : k < m) :
    effectiveExponent b m / 2 ^ k = 2 * (effectiveExponent b m / 2 ^ (k + 1)) + (b.getLsbD k).toNat := by
  have hbit : (b.getLsbD k).toNat = effectiveExponent b m / 2 ^ k % 2 := by
    rw [← Nat.toNat_testBit, effectiveExponent, Nat.testBit_mod_two_pow, decide_eq_true hk, Bool.true_and, BitVec.getLsbD]
  rw [hbit, pow_succ, ← Nat.div_div_eq_div_mul, Nat.div_add_mod]

/-! ## The value of the controller (R193, R198) -/

theorem modmul_exact (x y : Narrow) {n : Narrow} (hn : n ≠ 0) :
    (modmul x y n).val.toNat = x.toNat * y.toNat % n.toNat := by
  rw [modmul_val x y hn, toNat_residue _ hn, toNat_product]

/-- One iteration doubles the exponent of the accumulator and adds the bit: the square and the product are both made, and the
bit selects between `2x` and `2x + 1`. -/
theorem expIteration_exact (a b : Narrow) {n : Narrow} (hn : n ≠ 0) (i : Nat) {acc : Narrow} {x : Nat}
    (h : acc.toNat = a.toNat ^ x % n.toNat) :
    (expIteration a b n i acc).val.toNat = a.toNat ^ (2 * x + (b.getLsbD i).toNat) % n.toNat := by
  have hsquare : (modmul acc acc n).val.toNat = a.toNat ^ (2 * x) % n.toNat := by
    rw [modmul_exact _ _ hn, h, ← Nat.mul_mod, two_mul, pow_add]
  have hmultiply : (modmul (modmul acc acc n).val a n).val.toNat = a.toNat ^ (2 * x + 1) % n.toNat := by
    rw [modmul_exact _ _ hn, hsquare, Nat.mod_mul_mod, pow_succ]
  rw [expIteration, Traced.val_bind, Traced.val_bind, Traced.val_op]
  cases b.getLsbD i with
  | false => rw [ctSelect_false, hsquare, Bool.toNat_false, Nat.add_zero]
  | true => rw [ctSelect_true, hmultiply, Bool.toNat_true]

/-- The invariant of R198: with `k` bits to go the accumulator is the power to the bits taken in so far. -/
theorem expLoop_exact (a b : Narrow) {n : Narrow} (hn : n ≠ 0) {k m : Nat} (hk : k ≤ m) {acc : Narrow}
    (h : acc.toNat = a.toNat ^ (effectiveExponent b m / 2 ^ k) % n.toNat) :
    (expLoop a b n k acc).val.toNat = a.toNat ^ effectiveExponent b m % n.toNat := by
  induction k generalizing acc with
  | zero => simpa [expLoop] using h
  | succ k ih =>
    rw [expLoop, Traced.val_bind]
    refine ih (Nat.le_of_succ_le hk) ?_
    rw [expIteration_exact a b hn k h, effectiveExponent_div_two_pow b hk]

/-- The scan starts from `1 mod n`, the power to no bit at all. -/
theorem expRun_exact (a b : Narrow) {n : Narrow} (hn : n ≠ 0) (m : Nat) :
    (expRun a b n m).val.toNat = a.toNat ^ effectiveExponent b m % n.toNat := by
  refine expLoop_exact a b hn le_rfl ?_
  rw [reduce_val _ hn, toNat_residue _ hn, effectiveExponent_div_two_pow_self, pow_zero]
  rfl

theorem mxRun_exact (a b : Narrow) {n : Narrow} (hn : n ≠ 0) {m : Nat} (hm : m ≤ 256) (h : Hidden) :
    (mxRun a b n m h).toNat = a.toNat ^ effectiveExponent b m % n.toNat := by
  rw [← expRun_val a b hn hm h, expRun_exact a b hn]

/-! ## The shared rule, by the numbers it compares (R192, R194) -/

/-- The base check is the comparison of the numbers (R192). -/
theorem borrowLess_iff (a b : Narrow) : borrowLess a b = true ↔ a.toNat < b.toNat := rippleSub_borrow_iff a b

theorem ne_zero_of_toNat_lt {a n : Narrow} (h : a.toNat < n.toNat) : n ≠ 0 := by
  rintro rfl
  exact Nat.not_lt_zero _ h

section SharedRule
variable (rd : RegField) {ra rb rn : RegField} (k : Nat) {s : State}

theorem modexpInto_of_zero (hzero : s.readN rn = 0) :
    modexpInto rd ra rb rn k s = .next (s.finish .zeroModulus) := if_pos hzero

theorem modexpInto_of_ge (hn : s.readN rn ≠ 0) (hge : (s.readN rn).toNat ≤ (s.readN ra).toNat) :
    modexpInto rd ra rb rn k s = .next (s.finish .baseRange) :=
  (if_neg hn).trans (if_pos (Bool.eq_false_iff.2 (mt (borrowLess_iff _ _).1 hge.not_gt)))

theorem modexpInto_of_lt (hlt : (s.readN ra).toNat < (s.readN rn).toNat) :
    modexpInto rd ra rb rn k s =
      .next ((s.writeN rd (mxRun (s.readN ra) (s.readN rb) (s.readN rn) k s.hidden)).finish .ok) :=
  (if_neg (ne_zero_of_toNat_lt hlt)).trans (if_neg (ne_false_of_eq_true ((borrowLess_iff _ _).2 hlt)))

/-- A base below the modulus: the power is written, and nothing else changes (R193). -/
theorem modexpInto_writes_power (hk : k ≤ 256) (hlt : (s.readN ra).toNat < (s.readN rn).toNat) :
    ∃ t, modexpInto rd ra rb rn k s = .next t ∧ Completed t .ok ∧
      (t.readN rd).toNat = (s.readN ra).toNat ^ ((s.readN rb).toNat % 2 ^ k) % (s.readN rn).toNat ∧
      (t.readN rd).toNat < (s.readN rn).toNat ∧
      SameNarrowBut rd s t ∧ SameWide s t ∧ SameBuf s t ∧ SameFlags s t := by
  have hvalue := mxRun_exact (s.readN ra) (s.readN rb) (ne_zero_of_toNat_lt hlt) hk s.hidden
  refine ⟨_, modexpInto_of_lt rd k hlt, completed_finish _ _, ?_⟩
  rw [State.finish_readN, State.readN_writeN_self, hvalue]
  exact ⟨rfl, Nat.mod_lt _ (Nat.zero_lt_of_lt hlt), fun i hi => s.readN_writeN_of_ne _ hi, fun _ => rfl, fun _ => rfl,
    rfl, rfl⟩

end SharedRule

theorem exec_modexp_eq_modexpInto (rd ra rb rn : RegField) (bbits : BitVec 8) (s : State) :
    exec (.modexp rd ra rb rn bbits) s = modexpInto rd ra rb rn bbits.toNat s := rfl

theorem exec_modexp256_eq_modexpInto (rd ra rb rn : RegField) (s : State) :
    exec (.modexp256 rd ra rb rn) s = modexpInto rd ra rb rn 256 s := rfl

/-! ## The commands (R193, R194) -/

/-- Settles O20: the shared rule at the bit length of either row, and the invariant of the controller. -/
theorem modexpIsPower : Obligations.ModexpIsPower := by
  refine ⟨fun rd ra rb rn bbits s hlt => ?_, fun rd ra rb rn s hlt => ?_, fun a b n k h hlt hk => ?_⟩
  · rw [exec_modexp_eq_modexpInto]
    exact modexpInto_writes_power rd bbits.toNat bbits.isLt.le hlt
  · rw [exec_modexp256_eq_modexpInto]
    exact modexpInto_writes_power rd 256 le_rfl hlt
  · have hn := ne_zero_of_toNat_lt hlt
    exact ⟨mxRun_exact a b hn hk h, expRun_val a b hn hk h⟩

/-- Settles O21: either row is the shared rule at some bit length, and no case of that rule looks at it. -/
theorem modexpChecksInOrder : Obligations.ModexpChecksInOrder := by
  intro i rd ra rb rn s hrow
  obtain ⟨k, hexec⟩ : ∃ k, exec i s = modexpInto rd ra rb rn k s := by
    rcases hrow with ⟨bbits, rfl⟩ | rfl
    · exact ⟨_, exec_modexp_eq_modexpInto rd ra rb rn bbits s⟩
    · exact ⟨_, exec_modexp256_eq_modexpInto rd ra rb rn s⟩
  rw [hexec]
  exact ⟨fun hzero => ⟨_, modexpInto_of_zero rd k hzero, wroteOnlyErr_finish s .zeroModulus, rfl⟩,
    fun hn hge => ⟨_, modexpInto_of_ge rd k hn hge, wroteOnlyErr_finish s .baseRange, rfl⟩,
    fun _ hlt => ⟨_, modexpInto_of_lt rd k hlt, rfl⟩⟩

/-! ## The trace of a traced computation (R277) -/

section Traced
variable {α β : Type}

@[simp] theorem Traced.ops_pure (x : α) : (Traced.pure x).ops = [] := rfl

@[simp] theorem Traced.ops_op (o : MicroOp) (x : α) : (Traced.op o x).ops = [o] := rfl

@[simp] theorem Traced.ops_bind (x : Traced α) (f : α → Traced β) : (x.bind f).ops = x.ops ++ (f x.val).ops := rfl

@[simp] theorem Traced.ops_map (f : α → β) (x : Traced α) : (x.map f).ops = x.ops := rfl

end Traced

/-! ## The trace of the datapaths (R162, R174, R199) -/

theorem rippleSub_ops (a b : Narrow) : (rippleSub a b).ops = [.sbb 0, .sbb 1, .sbb 2, .sbb 3] := rfl

theorem macPass_ops (a b : Narrow) (i : Nat) (p : Wide) :
    (macPass a b i p).ops = [.mac i 0, .mac i 1, .mac i 2, .mac i 3] := rfl

theorem schoolbook_ops (a b : Narrow) : (schoolbook a b).ops = productOps := by
  simp only [schoolbook, Traced.ops_bind, macPass_ops]
  rfl

theorem reduceIteration_ops (bit : Bool) (i : Nat) (n : Narrow) (rem : BitVec 257) :
    (reduceIteration bit i n rem).ops = [.shift i, .sbb 0, .sbb 1, .sbb 2, .sbb 3, .sbb 4, .select] := rfl

/-- The bits of the dividend go into the remainder alone, never into what comes next. -/
theorem reduceLoop_ops {w : Nat} (a : BitVec w) (n : Narrow) (k : Nat) (rem : BitVec 257) :
    (reduceLoop a n k rem).ops = reduceOps k := by
  induction k generalizing rem with
  | zero => rfl
  | succ k ih => rw [reduceLoop, reduceOps, Traced.ops_bind, reduceIteration_ops, ih]

theorem reduce_ops {w : Nat} (a : BitVec w) (n : Narrow) : (reduce a n).ops = reduceOps w := by
  rw [reduce, Traced.ops_map, reduceLoop_ops]

theorem modmul_ops (x y n : Narrow) : (modmul x y n).ops = productOps ++ reduceOps 512 := by
  rw [modmul, Traced.ops_bind, schoolbook_ops, reduce_ops]

theorem expIteration_ops (a b n : Narrow) (i : Nat) (acc : Narrow) : (expIteration a b n i acc).ops = expIterationOps := by
  simp only [expIteration, expIterationOps, Traced.ops_bind, Traced.ops_op, modmul_ops, List.append_assoc]

/-- The bits of the exponent go into the accumulator alone, never into what comes next. -/
theorem expLoop_ops (a b n : Narrow) (k : Nat) (acc : Narrow) : (expLoop a b n k acc).ops = expLoopOps k := by
  induction k generalizing acc with
  | zero => rfl
  | succ k ih => rw [expLoop, expLoopOps, Traced.ops_bind, expIteration_ops, ih]

theorem expRun_ops (a b n : Narrow) (k : Nat) : (expRun a b n k).ops = reduceOps 256 ++ expLoopOps k := by
  rw [expRun, Traced.ops_bind, reduce_ops, expLoop_ops]

/-- Past both checks: the zero test, the base check, the controller. -/
theorem modexpTraced_ops (rd : RegField) {ra rn : RegField} (rb : RegField) (k : Nat) {s : State}
    (hlt : (s.readN ra).toNat < (s.readN rn).toNat) :
    (modexpTraced rd ra rb rn k s).ops =
      [.zeroTest, .sbb 0, .sbb 1, .sbb 2, .sbb 3] ++ reduceOps 256 ++ expLoopOps k := by
  have hless := (rippleSub_borrow_iff _ _).2 hlt
  rw [modexpTraced, Traced.ops_bind, Traced.ops_op, Traced.val_op, if_neg (by simpa using ne_zero_of_toNat_lt hlt),
    Traced.ops_bind, if_pos hless, Traced.ops_map, rippleSub_ops, expRun_ops, List.append_assoc]
  rfl

/-- Settles O46: each datapath's trace in turn, and both rows past their checks. -/
theorem modexpTraceDependsOnBbits : Obligations.ModexpTraceDependsOnBbits :=
  ⟨fun _ => reduce_ops, schoolbook_ops, expRun_ops,
    fun rd _ rb _ bbits _ hlt => modexpTraced_ops rd rb bbits.toNat hlt,
    fun rd _ rb _ _ hlt => modexpTraced_ops rd rb 256 hlt⟩

end Sys2Proof.Machine
end

section
/-! PROOF. `FROMBF`, `FROMBV` and `TOB` (spec 44_conversion.md). `be_nat` of 32 bytes and `be_bytes32` are inverse (00_scope.md
R10), so a register after a parse and the bytes after `TOB` are one list of bytes seen from two sides; the byte map (R213,
R217), zero extension (R215) and the round trip (R218) read it off. -/

namespace Sys2Proof.Machine

/-! ## Big-endian bytes (R10) -/

theorem beNat_lt (bs : List Byte) : beNat bs < 256 ^ bs.length := by
  induction bs with
  | nil => simp [beNat]
  | cons b bs ih =>
    calc 256 ^ bs.length * b.toNat + beNat bs
      _ < 256 ^ bs.length * b.toNat + 256 ^ bs.length := Nat.add_lt_add_left ih _
      _ = 256 ^ bs.length * (b.toNat + 1) := (Nat.mul_succ _ _).symm
      _ ≤ 256 ^ bs.length * 256 := Nat.mul_le_mul_left _ b.isLt
      _ = 256 ^ (b :: bs).length := (Nat.pow_succ ..).symm

/-- Zero bytes in front add nothing. -/
theorem beNat_replicate_zero_append (n : Nat) (bs : List Byte) : beNat (List.replicate n 0 ++ bs) = beNat bs := by
  induction n with
  | zero => rfl
  | succ n ih => simpa [List.replicate_succ, beNat] using ih

/-- The narrow value of a byte string, as a parse writes it (R212, R214). -/
def narrowOfBytes (bs : List Byte) : Narrow := BitVec.ofNat 256 (beNat bs)

/-- Up to 32 bytes fit a narrow register. -/
theorem toNat_narrowOfBytes {bs : List Byte} (h : bs.length ≤ 32) : (narrowOfBytes bs).toNat = beNat bs := by
  have hlt : beNat bs < 256 ^ 32 := (beNat_lt bs).trans_le (Nat.pow_le_pow_right (by decide) h)
  rw [narrowOfBytes, BitVec.toNat_ofNat]
  exact Nat.mod_eq_of_lt hlt

theorem narrowOfBytes_beBytes32 (v : Narrow) : narrowOfBytes (beBytes32 v) = v := by
  rw [narrowOfBytes, beNat_beBytes32, BitVec.ofNat_toNat, BitVec.setWidth_eq]

theorem beBytes32_narrowOfBytes {bs : List Byte} (h : bs.length = 32) : beBytes32 (narrowOfBytes bs) = bs := by
  apply eq_of_beNat_eq (by rw [length_beBytes32, h])
  rw [beNat_beBytes32, toNat_narrowOfBytes h.le]

/-- Byte `k` of limb `j` is byte `8j + k` from the end: the map of R213 and R217. -/
theorem extractLsb'_limb_eq_getD (v : Narrow) {j k : Nat} (hj : j < 4) (hk : k < 8) :
    (limb v j).extractLsb' (8 * k) 8 = (beBytes32 v).getD (31 - (8 * j + k)) 0 := by
  rw [getD_beBytes32 v (by omega), limb, show 31 - (31 - (8 * j + k)) = 8 * j + k by omega]
  apply BitVec.eq_of_getLsbD_eq
  intro i hi
  simp only [BitVec.getLsbD_extractLsb', hi, show 8 * k + i < 64 by omega, decide_true, Bool.true_and]
  rw [show 64 * j + (8 * k + i) = 8 * (8 * j + k) + i by omega]

/-! ## Runs of `BUF` (R8) -/

theorem Memory.getD_run (m : Memory) (a : Nat) {k n : Nat} (h : k < n) : (m.run a n).getD k 0 = m.byteAt (a + k) := by
  simp [Memory.run_eq_map, h]

/-- A run reads back as the bytes stored there. -/
theorem Memory.run_putRun (m : Memory) (a : Nat) (bs : List Byte) : (m.putRun a bs).run a bs.length = bs := by
  apply List.ext_getElem (Memory.length_run _ _ _)
  intro k _ hk
  have hget := Memory.getD_run (m.putRun a bs) a hk
  rw [Memory.byteAt_putRun_inside bs m a k hk] at hget
  simpa [hk] using hget

/-! ## The parse (R212, R214) -/

/-- The state after the bytes were parsed into `r[rd]`. -/
def parseDone (s : State) (rd : RegField) (bs : List Byte) : State := (s.writeN rd (narrowOfBytes bs)).finish .ok

@[simp] theorem parseDone_readN_self (s : State) (rd : RegField) (bs : List Byte) :
    (parseDone s rd bs).readN rd = narrowOfBytes bs := s.readN_writeN_self rd _

theorem parseDone_completed (s : State) (rd : RegField) (bs : List Byte) : Completed (parseDone s rd bs) .ok :=
  completed_finish _ _

/-- A parse changes one narrow register. -/
theorem parseDone_frame (s : State) (rd : RegField) (bs : List Byte) :
    SameNarrowBut rd s (parseDone s rd bs) ∧ SameWide s (parseDone s rd bs) ∧ SameBuf s (parseDone s rd bs) ∧
      SameFlags s (parseDone s rd bs) :=
  ⟨fun _ hi => s.readN_writeN_of_ne _ hi, fun _ => rfl, fun _ => rfl, rfl, rfl⟩

theorem parseInto_inside (rd : RegField) {addr len : Nat} (s : State) (h : addr + len ≤ 256) :
    parseInto rd addr len s = .next (parseDone s rd (s.buf.run addr len)) := by
  rcases parseInto_cases rd addr len s with ⟨hout, -⟩ | ⟨-, hin⟩
  · omega
  · rw [hin, Memory.run_eq_map]
    rfl

/-- With 32 bytes inside `BUF` both commands are one parse (R212, R214). -/
theorem exec_parse_32 {i : Instr} {rd : RegField} {addr : BitVec 8} (s : State)
    (hi : i = .frombf rd addr 32 ∨ i = .frombv rd addr 32) (h : addr.toNat + 32 ≤ 256) :
    exec i s = .next (parseDone s rd (s.buf.run addr.toNat 32)) := by
  rcases hi with rfl | rfl
  · rw [exec_frombf_32, parseInto_inside rd s h]
  · exact (exec_frombv_of_le rd addr s (by decide)).trans (parseInto_inside rd s h)

/-- Settles O23: the bytes of the register are the run that was parsed. -/
theorem parseOf32BytesIsBigEndian : Obligations.ParseOf32BytesIsBigEndian := by
  intro i rd addr s hi hin
  refine ⟨_, exec_parse_32 s hi hin, parseDone_completed _ _ _, fun j k hj hk => ?_, parseDone_frame _ _ _⟩
  rw [parseDone_readN_self, extractLsb'_limb_eq_getD _ hj hk, beBytes32_narrowOfBytes (Memory.length_run _ _ _),
    Memory.getD_run _ _ (by omega), State.byteAt, Nat.add_sub_assoc (by omega)]

/-- Settles O24: up to 32 bytes the register holds `be_nat` of the run, to which zero bytes in front add nothing. -/
theorem frombvZeroExtends : Obligations.FrombvZeroExtends := by
  intro rd addr len s hlen hin bytes
  have hbytes : s.buf.run addr.toNat len.toNat = bytes := Memory.run_eq_map _ _ _
  have hlength : bytes.length = len.toNat := by rw [← hbytes, Memory.length_run]
  have hexec : exec (.frombv rd addr len) s = .next (parseDone s rd bytes) := by
    rw [exec_frombv_of_le rd addr s hlen, parseInto_inside rd s hin, hbytes]
  refine ⟨_, hexec, parseDone_completed _ _ _, ?_⟩
  rw [parseDone_readN_self, toNat_narrowOfBytes (hlength.trans_le hlen), beNat_replicate_zero_append, ← hlength]
  exact ⟨rfl, rfl, beNat_lt bytes, parseDone_frame _ _ _⟩

/-! ## The length check (R221) -/

theorem exec_frombf_of_ne (rd : RegField) (addr : BitVec 8) {len : BitVec 6} (s : State) (h : len.toNat ≠ 32) :
    exec (.frombf rd addr len) s = .next (s.finish .length) := if_neg h

theorem exec_frombv_of_gt (rd : RegField) (addr : BitVec 8) {len : BitVec 6} (s : State) (h : 32 < len.toNat) :
    exec (.frombv rd addr len) s = .next (s.finish .length) := if_neg h.not_ge

/-- Settles O25: either command fails on its length before it comes to the parse, which alone looks at the run. -/
theorem parseLengthBeforeRange : Obligations.ParseLengthBeforeRange := fun rd addr _ s =>
  ⟨fun h => ⟨_, exec_frombf_of_ne rd addr s h, wroteOnlyErr_finish s .length, rfl⟩,
    fun h => ⟨_, exec_frombv_of_gt rd addr s h, wroteOnlyErr_finish s .length, rfl⟩⟩

/-! ## The store (R216) -/

/-- The state after the bytes of `v` were stored from `addr` on. -/
def tobDone (s : State) (addr : Nat) (v : Narrow) : State :=
  State.finish { s with buf := s.buf.putRun addr (beBytes32 v) } .ok

theorem exec_tob_inside (rs : RegField) {addr : BitVec 8} (s : State) (h : addr.toNat + 32 ≤ 256) :
    exec (.tob rs addr) s = .next (tobDone s addr.toNat (s.readN rs)) := by
  rcases execTob_cases rs addr s with ⟨hout, -⟩ | ⟨-, hin⟩
  · omega
  · exact hin

theorem tobDone_byteAt_inside (s : State) (addr : Nat) (v : Narrow) {k : Nat} (hk : k < 32) :
    (tobDone s addr v).byteAt (addr + k) = (beBytes32 v).getD k 0 :=
  Memory.byteAt_putRun_inside _ _ _ _ (by rwa [length_beBytes32])

theorem tobDone_byteAt_outside (s : State) (addr : Nat) (v : Narrow) {a : Nat} (h : ¬(addr ≤ a ∧ a < addr + 32)) :
    (tobDone s addr v).byteAt a = s.byteAt a :=
  Memory.byteAt_putRun_outside _ _ _ _ (by rwa [length_beBytes32])

@[simp] theorem tobDone_buf (s : State) (addr : Nat) (v : Narrow) :
    (tobDone s addr v).buf = s.buf.putRun addr (beBytes32 v) := rfl

theorem tobDone_run (s : State) (addr : Nat) (v : Narrow) : (tobDone s addr v).buf.run addr 32 = beBytes32 v := by
  simpa only [tobDone_buf, length_beBytes32] using Memory.run_putRun s.buf addr (beBytes32 v)

/-- Settles O27: the bytes stored are those of the register, and the run holds nothing else. -/
theorem tobWritesBigEndian : Obligations.TobWritesBigEndian := by
  intro rs addr s hin
  have hbyte : ∀ k, k < 32 → (tobDone s addr.toNat (s.readN rs)).byteAt (addr.toNat + k) =
      (s.readN rs).extractLsb' (8 * (31 - k)) 8 := fun k hk => by
    rw [tobDone_byteAt_inside s _ _ hk, getD_beBytes32 _ hk]
  refine ⟨_, exec_tob_inside rs s hin, completed_finish _ _, fun j k hj hk => ?_, hbyte 0 (by decide), hbyte 31 (by decide),
    fun a ha => tobDone_byteAt_outside s _ _ ha, fun _ => rfl, fun _ => rfl, rfl, rfl⟩
  rw [extractLsb'_limb_eq_getD _ hj hk, Nat.add_sub_assoc (by omega), tobDone_byteAt_inside s _ _ (by omega)]

/-! ## The round trip (R218) -/

/-- Either parse command reads the register back that `TOB` stored. -/
theorem exec_parse_tobDone {i : Instr} {rd : RegField} {addr : BitVec 8} (s : State) (v : Narrow)
    (hi : i = .frombf rd addr 32 ∨ i = .frombv rd addr 32) (h : addr.toNat + 32 ≤ 256) :
    ∃ u, exec i (tobDone s addr.toNat v) = .next u ∧ u.readN rd = v :=
  ⟨_, exec_parse_32 _ hi h, by rw [parseDone_readN_self, tobDone_run, narrowOfBytes_beBytes32]⟩

/-- Settles O28, by the two directions in which `be_nat` and `be_bytes32` are inverse. -/
theorem tobAndParseRoundTrip : Obligations.TobAndParseRoundTrip := by
  refine ⟨fun rs rd addr s haddr => ?_, fun rd addr addr2 s haddr haddr2 => ?_⟩
  · obtain ⟨u, hu, hureg⟩ := exec_parse_tobDone (rd := rd) s (s.readN rs) (.inl rfl) (show addr.toNat + 32 ≤ 256 by omega)
    obtain ⟨v, hv, hvreg⟩ := exec_parse_tobDone (rd := rd) s (s.readN rs) (.inr rfl) (show addr.toNat + 32 ≤ 256 by omega)
    exact ⟨_, u, v, exec_tob_inside rs s (by omega), hu, hv, hureg, hvreg⟩
  · refine ⟨_, _, exec_parse_32 s (.inl rfl) (by omega), exec_tob_inside rd _ (by omega), fun k hk => ?_⟩
    rw [tobDone_byteAt_inside _ _ _ hk, parseDone_readN_self, beBytes32_narrowOfBytes (Memory.length_run _ _ _),
      Memory.getD_run _ _ hk, State.byteAt]

end Sys2Proof.Machine
end

section
/-! PROOF. `LT` (spec 45_compare.md): the flag is the borrow of the subtractor's chain, which says whether the first number is
the smaller (R147), and `SUB` writes the same borrow to `FLAGS.C` (R232). -/

namespace Sys2Proof.Machine

/-- The state once `FLAGS.LT` is written and the command has ended. -/
def compareDone (s : State) (less : Bool) : State := (s.setLT less).finish .ok

theorem exec_lt (ra rb : RegField) (s : State) :
    exec (.lt ra rb) s = .next (compareDone s (borrowLess (s.readN ra) (s.readN rb))) := rfl

@[simp] theorem compareDone_flagLT (s : State) (less : Bool) : (compareDone s less).flagLT = less := rfl

theorem compareDone_completed (s : State) (less : Bool) : Completed (compareDone s less) .ok := completed_finish _ _

theorem compareDone_frame (s : State) (less : Bool) : SameNarrow s (compareDone s less) ∧ SameWide s (compareDone s less) ∧
    SameBuf s (compareDone s less) ∧ (compareDone s less).flagC = s.flagC :=
  ⟨fun _ => rfl, fun _ => rfl, fun _ => rfl, rfl⟩

/-- Settles O15: the borrow that `LT` writes is the comparison of the numbers. -/
theorem ltIsUnsignedLess : Obligations.LtIsUnsignedLess := by
  intro ra rb s
  refine ⟨_, exec_lt ra rb s, compareDone_completed s _, ?_, compareDone_frame s _⟩
  rw [compareDone_flagLT]
  exact borrowLess_iff (s.readN ra) (s.readN rb)

/-- Settles O16: both flags are the borrow of one chain over the same sources. -/
theorem ltAgreesWithSubBorrow : Obligations.LtAgreesWithSubBorrow := by
  intro rd ra rb s
  refine ⟨_, _, exec_lt ra rb s, exec_sub rd ra rb s, ?_⟩
  rw [compareDone_flagLT, writeCarryDone_flagC, borrowLess]

end Sys2Proof.Machine
end

section
/-! PROOF. Bus errors (spec 60_exceptions.md R252): an aligned address below `0x318` names a location of the map, and an access
to a location answers no error; so the error answers are those of `hostRead_error` and `hostWrite_error`, and they write
nothing. -/

namespace Sys2Proof.Machine

/-! ## Which accesses answer a bus error (R66, R74, R75) -/

/-- An aligned address below `0x318` names a limb of a register, a doubleword of the window or one of the three control
registers (R62 to R65). -/
theorem busAddr_cases {addr : BusAddr} (haligned : addr.toNat % 8 = 0) (hlt : addr.toNat < 0x318) :
    (∃ (i : RegField) (j : Nat), j < 4 ∧ addr.toNat = 32 * i.toNat + 8 * j) ∨
    (∃ (k : BitVec 2) (j : Nat), j < 8 ∧ addr.toNat = 0x100 + 64 * k.toNat + 8 * j) ∨
    (∃ m, m < 32 ∧ addr.toNat = 0x200 + 8 * m) ∨ addr = 0x300 ∨ addr = 0x308 ∨ addr = 0x310 := by
  by_cases hnarrow : addr.toNat < 0x100
  · refine .inl ⟨BitVec.ofNat 3 (addr.toNat / 32), addr.toNat / 8 % 4, by omega, ?_⟩
    rw [BitVec.toNat_ofNat]
    omega
  by_cases hwide : addr.toNat < 0x200
  · refine .inr (.inl ⟨BitVec.ofNat 2 (addr.toNat / 64), addr.toNat / 8 % 8, by omega, ?_⟩)
    rw [BitVec.toNat_ofNat]
    omega
  by_cases hwindow : addr.toNat < 0x300
  · exact .inr (.inr (.inl ⟨addr.toNat / 8 % 32, by omega, by omega⟩))
  have hcontrol : addr.toNat = 0x300 ∨ addr.toNat = 0x308 ∨ addr.toNat = 0x310 := by omega
  exact .inr (.inr (.inr (hcontrol.imp BitVec.eq_of_toNat_eq (Or.imp BitVec.eq_of_toNat_eq BitVec.eq_of_toNat_eq))))

/-- Every location of the map can be read (R68). -/
theorem hostRead_noError (s : State) {addr : BusAddr} (haligned : addr.toNat % 8 = 0) (hlt : addr.toNat < 0x318) :
    (hostRead s addr).2 = false := by
  rcases busAddr_cases haligned hlt with ⟨i, j, hj, h⟩ | ⟨k, j, hj, h⟩ | ⟨m, hm, h⟩ | rfl | rfl | rfl
  · rw [hostRead_narrow s hj h]
  · rw [hostRead_wide s hj h]
  · rw [hostRead_window s hm h]
  · rw [hostRead_cmd]
  · rw [hostRead_status]
  · rw [hostRead_flags]

/-- Every location of the map but `STATUS` and `FLAGS` can be written (R69). -/
theorem hostWrite_noError (s : State) {addr : BusAddr} (d : Limb) (haligned : addr.toNat % 8 = 0)
    (hlt : addr.toNat < 0x318) (hstatus : addr ≠ 0x308) (hflags : addr ≠ 0x310) : (hostWrite s addr d).2 = false := by
  rcases busAddr_cases haligned hlt with ⟨i, j, hj, h⟩ | ⟨k, j, hj, h⟩ | ⟨m, hm, h⟩ | rfl | rfl | rfl
  · rw [hostWrite_narrow s d hj h]
  · rw [hostWrite_wide s d hj h]
  · rw [hostWrite_window s d hm h]
  · rw [hostWrite_cmd]
  · exact absurd rfl hstatus
  · exact absurd rfl hflags

theorem hostRead_error_iff (s : State) (addr : BusAddr) :
    (hostRead s addr).2 = true ↔ addr.toNat % 8 ≠ 0 ∨ 0x318 ≤ addr.toNat := by
  refine ⟨fun herr => ?_, fun h => by rw [hostRead_error s h]⟩
  by_contra hmapped
  obtain ⟨haligned, hlt⟩ := not_or.1 hmapped
  have hok := hostRead_noError s (not_not.1 haligned) (not_le.1 hlt)
  exact Bool.false_ne_true (hok.symm.trans herr)

theorem hostWrite_error_iff (s : State) (addr : BusAddr) (d : Limb) :
    (hostWrite s addr d).2 = true ↔ addr.toNat % 8 ≠ 0 ∨ addr = 0x308 ∨ addr = 0x310 ∨ 0x318 ≤ addr.toNat := by
  refine ⟨fun herr => ?_, fun h => by rw [hostWrite_error s d h]⟩
  by_contra hwritable
  simp only [not_or, not_not, not_le] at hwritable
  obtain ⟨haligned, hstatus, hflags, hlt⟩ := hwritable
  have hok := hostWrite_noError s d haligned hlt hstatus hflags
  exact Bool.false_ne_true (hok.symm.trans herr)

/-! ## A bus error changes nothing (R252) -/

theorem acceptWrite_reply_error_iff (addr : BusAddr) (d : Limb) (s : State) :
    (acceptWrite addr d s).reply = some (.write true) ↔ (hostWrite s addr d).2 = true := by
  simp [acceptWrite]

/-- A write that answers a bus error leaves the whole block as it was. -/
theorem acceptWrite_sameBlock_of_error {s : State} {addr : BusAddr} {d : Limb} (h : (hostWrite s addr d).2 = true) :
    SameBlock s (acceptWrite addr d s) := by
  rw [acceptWrite_of_hostWrite (hostWrite_error s d ((hostWrite_error_iff s addr d).1 h))]
  exact sameBlock_port_reply_left_clock s _ _ _ _

/-- Settles O40: while idle the step is the acceptance, whose error answer `hostRead_error_iff` and `hostWrite_error_iff` place
on the map. -/
theorem busErrorsChangeNothing : Obligations.BusErrorsChangeNothing := by
  intro s e rest t hp hq hstep
  refine ⟨?_, ?_⟩
  · rintro addr rfl
    obtain ⟨u, hu, hreply, hport, -, hsame⟩ := step_acceptsRead (.inl hp) hq
    obtain rfl := Host.Outcome.next.inj (hu.symm.trans hstep)
    refine ⟨?_, hport, hsame⟩
    rw [hreply, ← hostRead_error_iff s addr]
    simp
  · rintro addr d rfl
    obtain rfl := Host.Outcome.next.inj ((step_idle hp hq).symm.trans hstep)
    have herr := acceptWrite_reply_error_iff addr d { s with port := rest }
    refine ⟨?_, fun h => ⟨acceptWrite_port addr d _, acceptWrite_sameBlock_of_error (herr.1 h)⟩⟩
    rw [idleStep, herr, hostWrite_error_iff]
    tauto

end Sys2Proof.Machine
end

section
/-! PROOF. Reset, the hold and time (spec 70_reset_and_hazards.md R270 to R280): while a command runs a step is a reset, one
busy cycle that leaves the block as it is, or the completion. So the run is as long as its busy cycles (R280), and the code
it ends with is known from its acceptance on (R276). -/

namespace Sys2Proof.Machine

/-! ## Reset (R270, R272) -/

/-- `rst` takes effect whatever the engine does. -/
theorem step_reset {s : State} {rest : List HostEvent} (hq : s.port = .reset :: rest) :
    step s = .next (resetCycle { s with port := rest }) := by
  cases hp : s.phase with
  | idle => exact step_idle hp hq
  | exec => exact step_exec hp hq

/-- Settles O34. -/
theorem resetCycleFromAnyState : Obligations.ResetCycleFromAnyState := fun _ _ hq =>
  ⟨rfl, rfl, _, step_reset hq, rfl, rfl, rfl, rfl, rfl, rfl, rfl, rfl, rfl, rfl, rfl, rfl⟩

/-! ## A step while a command runs (R34, R35) -/

/-- One cycle before the completion: time passes, and nothing of the block changes. -/
structure BusyCycle (s t : State) : Prop where
  left : t.left + 1 = s.left
  clock : t.clock = s.clock + 1
  block : SameBlock s t

theorem BusyCycle.phase {s t : State} (h : BusyCycle s t) : t.phase = s.phase := by
  obtain ⟨-, -, -, -, -, -, -, hphase, -⟩ := h
  exact hphase

theorem BusyCycle.curCmd {s t : State} (h : BusyCycle s t) : t.curCmd = s.curCmd := by
  obtain ⟨-, -, -, -, -, -, -, -, hcmd, -⟩ := h
  exact hcmd

theorem busyCycle_of_busyStep {s t : State} {e : HostEvent} (h : busyStep e s = some t) (he : e ≠ .reset) :
    BusyCycle s t := by
  have hblock := busyStep_sameBlock h he
  rcases busyStep_cases h with ⟨rfl, -⟩ | ⟨-, hleft, rfl⟩ | ⟨-, hleft, rfl⟩
  · exact absurd rfl he
  · exact ⟨Nat.sub_add_cancel hleft, rfl, hblock⟩
  · exact ⟨Nat.sub_add_cancel hleft, rfl, hblock⟩

/-- What a step can do while a command runs: reset the block, pass one busy cycle, or complete the command. -/
theorem step_exec_cases {s t : State} (hp : s.phase = .exec) (h : step s = .next t) :
    (s.port.head? = some .reset ∧ t.phase = .idle) ∨ BusyCycle s t ∨ engineComplete s = .next t := by
  rcases step_cases s with ⟨hi, -, -⟩ | ⟨e, rest, hi, -, -⟩ | ⟨e, rest, u, -, hq, hb, hs⟩ | ⟨-, -, hs⟩
  · exact nomatch hp.symm.trans hi
  · exact nomatch hp.symm.trans hi
  · obtain rfl := Host.Outcome.next.inj (hs.symm.trans h)
    by_cases he : e = .reset
    · subst he
      cases hb
      exact .inl ⟨by rw [hq, List.head?_cons], rfl⟩
    · obtain ⟨hleft, hclock, hblock⟩ := busyCycle_of_busyStep hb he
      exact .inr (.inl ⟨hleft, hclock, hblock⟩)
  · exact .inr (.inr (hs.symm.trans h))

/-- The run ends with the step, or a busy cycle of it has passed. -/
theorem idle_or_busyCycle {s t : State} (hp : s.phase = .exec) (h : step s = .next t) : t.phase = .idle ∨ BusyCycle s t := by
  rcases step_exec_cases hp h with ⟨-, hidle⟩ | hbusy | hdone
  · exact .inl hidle
  · exact .inr hbusy
  · obtain ⟨-, -, -, hidle, -⟩ := engineComplete_keeps hdone
    exact .inl hidle

/-- Settles O11, by induction on the busy cycles left: every step that does not end the run takes one of them. -/
theorem commandEndsWithinItsBusyCycles : Obligations.CommandEndsWithinItsBusyCycles := by
  intro s hp
  induction hleft : s.left generalizing s with
  | zero =>
    obtain ⟨t, ht⟩ := step_next s
    rcases idle_or_busyCycle hp ht with hidle | hbusy
    · exact ⟨1, t, le_rfl, ⟨t, ht, rfl⟩, hidle⟩
    · exact absurd (hbusy.left.trans hleft) (Nat.succ_ne_zero _)
  | succ n ih =>
    obtain ⟨t, ht⟩ := step_next s
    rcases idle_or_busyCycle hp ht with hidle | hbusy
    · exact ⟨1, t, by omega, ⟨t, ht, rfl⟩, hidle⟩
    · obtain ⟨k, u, hk, hu, hidle⟩ := ih t (hbusy.phase.trans hp) (Nat.succ.inj (hbusy.left.trans hleft))
      exact ⟨k + 1, u, Nat.succ_le_succ hk, ⟨t, ht, hu⟩, hidle⟩

/-! ## The pending code (R276) -/

/-- Registers and `BUF` are all that any command reads (R25). -/
theorem agreeOnSources_of_same {s t : State} (hnarrow : SameNarrow s t) (hwide : SameWide s t) (hbuf : SameBuf s t)
    (i : Instr) : agreeOnSources i t s := by
  cases i with
  | add | sub | lt | mul | mod => exact ⟨hnarrow _, hnarrow _⟩
  | modw => exact ⟨fun k _ => hwide k, hnarrow _⟩
  | modexp | modexp256 => exact ⟨hnarrow _, hnarrow _, hnarrow _⟩
  | frombf | frombv => exact fun _ _ => hbuf _
  | tob => exact hnarrow _

/-- The pending code is the code of the completion. -/
theorem pendingCode_of_complete {s t : State} (h : engineComplete s = .next t) : pendingCode s = t.err := by
  rw [pendingCode, h]

/-- The pending code depends on the state of the block alone: on the command word and the command's sources. -/
theorem pendingCode_eq_of_sameBlock {s t : State} (h : SameBlock s t) : pendingCode t = pendingCode s := by
  obtain ⟨hnarrow, hwide, hbuf, -, -, -, hcmd, -⟩ := h
  simp only [pendingCode, engineComplete, hcmd]
  cases decode s.curCmd with
  | error x => rfl
  | ok i =>
    obtain ⟨u, v, hu, hv, herr, -⟩ := equalSourcesEqualResults i t s (agreeOnSources_of_same hnarrow hwide hbuf i)
    simp only [hu, hv, herr]

/-! ## Acceptance (R33, R274) -/

/-- The code that acceptance looks ahead to is the one that is then pending. -/
theorem acceptCommand_left (w : CmdWord) (s : State) :
    (acceptCommand w s).left = Config.busyCycles w (errBits (pendingCode (acceptCommand w s))) := by
  rw [pendingCode_eq_of_sameBlock (t := acceptCommand w s)
    (sameBlock_port_reply_left_clock { s with curCmd := w, phase := .exec } s.reply s.port _ s.clock)]
  rfl

/-- The reply and the cycle of the accepted write are no state of the block. -/
theorem acceptWrite_cmd_sameBlock (d : Limb) (s : State) :
    SameBlock (acceptCommand (wordOfBus d) s) (acceptWrite 0x300 d s) :=
  sameBlock_port_reply_left_clock (acceptCommand (wordOfBus d) s) _ _ _ _

/-- While idle the write of a command word starts the engine, with `LAT` less this cycle to come. -/
theorem step_acceptsCommand {s : State} {d : Limb} {rest : List HostEvent} (hp : s.phase = .idle)
    (hq : s.port = .write 0x300 d :: rest) :
    ∃ t, step s = .next t ∧ t.phase = .exec ∧ t.port = rest ∧ t.clock = s.clock + 1 ∧
      t.left = Config.busyCycles t.curCmd (errBits (pendingCode t)) := by
  refine ⟨acceptWrite 0x300 d { s with port := rest }, step_idle hp hq, rfl, rfl, rfl, ?_⟩
  rw [pendingCode_eq_of_sameBlock (acceptWrite_cmd_sameBlock d _)]
  exact acceptCommand_left _ _

/-- Settles O43: acceptance, the completion because the read is held, then the read from an idle engine. -/
theorem readAfterCommandSeesItsResult : Obligations.ReadAfterCommandSeesItsResult := by
  intro s d addr rest hp hq haddr
  obtain ⟨u, haccept, hexec, hheld, -⟩ := step_acceptsCommand hp hq
  obtain ⟨t, hdone, hport, -, hidle⟩ := engineComplete_next u
  obtain ⟨v, hread, hreply, hrest, -⟩ := step_acceptsRead (.inl hidle) (hport.trans hheld)
  have hturn := step_eq_engineComplete (engineTurn_read hexec hheld haddr)
  exact ⟨u, t, v, haccept, hdone, hturn.trans hdone, hread, hreply, hrest⟩

/-! ## The latency law (R276) -/

/-- Settles O44: the code that acceptance looks ahead to stays the pending one, and a busy cycle moves one from the cycles to
come to the cycles passed. -/
theorem latencyDependsOnWordAndCode : Obligations.LatencyDependsOnWordAndCode := by
  refine ⟨fun s d rest hp hq => ?_, fun t u hp hrst hstep => ?_⟩
  · obtain ⟨t, hstep, -, -, hclock, hleft⟩ := step_acceptsCommand hp hq
    refine ⟨t, hstep, ?_⟩
    rw [hclock, hleft, Config.lat]
    omega
  · rcases step_exec_cases hp hstep with ⟨hreset, -⟩ | hbusy | hdone
    · exact absurd hreset hrst
    · have ⟨hleft, hclock, hblock⟩ := hbusy
      exact ⟨fun _ => ⟨by omega, pendingCode_eq_of_sameBlock hblock, hbusy.curCmd⟩,
        fun hidle => (nomatch hidle.symm.trans (hbusy.phase.trans hp))⟩
    · obtain ⟨-, -, -, hidle, hclock, -⟩ := engineComplete_keeps hdone
      exact ⟨fun hexec => (nomatch hexec.symm.trans hidle), fun _ => ⟨hclock, (pendingCode_of_complete hdone).symm⟩⟩

end Sys2Proof.Machine
end

section
/-! PROOF. The trace law (spec 70_reset_and_hazards.md R277): the operations of a command, written out as a function of the
command and of the code it completes with. -/

namespace Sys2Proof.Machine

/-! ## The operations of a command, by its code -/

/-- `MOD` and `MODW` on a dividend of `w` bits (R172 to R174). -/
def reduceCommandOps (w : Nat) : ErrCode → List MicroOp
  | .ok => .zeroTest :: reduceOps w
  | .zeroModulus => [.zeroTest]
  | _ => []

/-- `MODEXP` (R192, R199). -/
def modexpCommandOps (bbits : Nat) : ErrCode → List MicroOp
  | .ok => [.zeroTest, .sbb 0, .sbb 1, .sbb 2, .sbb 3] ++ reduceOps 256 ++ expLoopOps bbits
  | .zeroModulus => [.zeroTest]
  | .baseRange => [.zeroTest, .sbb 0, .sbb 1, .sbb 2, .sbb 3]
  | _ => []

/-- A command whose checks come before its first operation: all of its operations on success, none on a failure. -/
def opsOnSuccess (ops : List MicroOp) (code : ErrCode) : List MicroOp := if code = .ok then ops else []

/-- The operations on the bytes of a run of `BUF`, lowest address first (R223). -/
def runOps (op : Nat → MicroOp) (addr len : Nat) : List MicroOp := (List.range len).map fun k => op (addr + k)

/-- The operations of the command when it completes with the code. -/
def commandOps (i : Instr) (code : ErrCode) : List MicroOp :=
  match i with
  | .add _ _ _ => [.adc 0, .adc 1, .adc 2, .adc 3]
  | .sub _ _ _ => [.sbb 0, .sbb 1, .sbb 2, .sbb 3]
  | .lt _ _ => [.sbb 0, .sbb 1, .sbb 2, .sbb 3]
  | .mul _ _ _ => opsOnSuccess productOps code
  | .mod _ _ _ => reduceCommandOps 256 code
  | .modw _ _ _ => reduceCommandOps 512 code
  | .modexp _ _ _ _ bbits => modexpCommandOps bbits.toNat code
  | .modexp256 _ _ _ _ => modexpCommandOps 256 code
  | .frombf _ addr _ => opsOnSuccess (runOps .bufRead addr.toNat 32) code
  | .frombv _ addr len => opsOnSuccess (runOps .bufRead addr.toNat len.toNat) code
  | .tob _ addr => opsOnSuccess (runOps .bufWrite addr.toNat 32) code

/-! ## The shared rules -/

/-- The code a completion was ended with is read off its outcome. -/
theorem err_of_next_finish {r : Result} {u t : State} {c : ErrCode} (hr : r = .next (u.finish c)) (h : r = .next t) :
    t.err = c := by
  obtain rfl := Host.Outcome.next.inj (hr.symm.trans h)
  rfl

theorem failTraced_ops (s : State) (c : ErrCode) : (failTraced s c).ops = [] := rfl

theorem reduceIntoTraced_ops {w : Nat} {rd : RegField} {a : BitVec w} {n : Narrow} {s t : State}
    (h : reduceInto rd a n s = .next t) : (reduceIntoTraced rd a n s).ops = reduceCommandOps w t.err := by
  rcases reduceInto_cases rd a n s with ⟨hn, hr⟩ | ⟨hn, hr⟩
  · simp [err_of_next_finish hr h, reduceIntoTraced, reduceCommandOps, hn, failTraced_ops]
  · rw [err_of_next_finish hr h, reduceIntoTraced, Traced.ops_bind, Traced.val_op, if_neg (by simpa using hn),
      Traced.ops_map, reduce_ops]
    rfl

theorem modexpTraced_ops_of_next {rd ra rb rn : RegField} {k : Nat} {s t : State}
    (h : modexpInto rd ra rb rn k s = .next t) : (modexpTraced rd ra rb rn k s).ops = modexpCommandOps k t.err := by
  rcases modexpInto_cases rd ra rb rn k s with ⟨hn, hr⟩ | ⟨hn, hless, hr⟩ | ⟨-, hless, hr⟩
  · simp [err_of_next_finish hr h, modexpTraced, modexpCommandOps, hn, failTraced_ops]
  · have hborrow : (rippleSub (s.readN ra) (s.readN rn)).val.1 ≠ true := ne_true_of_eq_false hless
    rw [err_of_next_finish hr h, modexpTraced, Traced.ops_bind, Traced.val_op, if_neg (by simpa using hn), Traced.ops_bind,
      if_neg hborrow]
    rfl
  · rw [err_of_next_finish hr h, modexpTraced_ops rd rb k ((borrowLess_iff _ _).1 hless), modexpCommandOps]

theorem parseTraced_ops {rd : RegField} {addr len : Nat} {s t : State} (h : parseInto rd addr len s = .next t) :
    (parseTraced rd addr len s).ops = opsOnSuccess (runOps .bufRead addr len) t.err := by
  rcases parseInto_cases rd addr len s with ⟨hout, hr⟩ | ⟨hin, hr⟩
  · simp [err_of_next_finish hr h, parseTraced, opsOnSuccess, runInside, hout.not_ge, failTraced_ops]
  · simp [err_of_next_finish hr h, parseTraced, opsOnSuccess, runInside, hin, runOps]

/-! ## Every command -/

/-- The trace of a command is that of its code: the operands decide which code it is, and nothing more. -/
theorem execTraced_ops {i : Instr} {s t : State} (h : exec i s = .next t) :
    (execTraced i s).ops = commandOps i t.err := by
  cases i with
  | add rd ra rb => rfl
  | sub rd ra rb => rfl
  | lt ra rb => rfl
  | mul wd ra rb =>
    simp only [exec, execMul, execTraced, commandOps] at h ⊢
    cases hk : wideNumber wd with
    | none =>
      rw [hk] at h
      rw [err_of_next_finish rfl h]
      rfl
    | some k =>
      rw [hk] at h
      rw [err_of_next_finish rfl h, opsOnSuccess, if_pos rfl]
      exact schoolbook_ops _ _
  | mod rd ra rn => exact reduceIntoTraced_ops h
  | modw rd wa rn =>
    simp only [exec, execModw, execTraced, commandOps] at h ⊢
    cases hk : wideNumber wa with
    | none =>
      rw [hk] at h
      rw [err_of_next_finish rfl h]
      rfl
    | some k =>
      rw [hk] at h
      exact reduceIntoTraced_ops h
  | modexp rd ra rb rn bbits => exact modexpTraced_ops_of_next h
  | modexp256 rd ra rb rn => exact modexpTraced_ops_of_next h
  | frombf rd addr len =>
    by_cases hlen : len.toNat = 32
    · rw [execTraced, if_pos hlen]
      exact parseTraced_ops ((if_pos hlen).symm.trans h)
    · rw [execTraced, if_neg hlen, err_of_next_finish (exec_frombf_of_ne rd addr s hlen) h]
      rfl
  | frombv rd addr len =>
    by_cases hlen : len.toNat ≤ 32
    · rw [execTraced, if_pos hlen]
      exact parseTraced_ops ((exec_frombv_of_le rd addr s hlen).symm.trans h)
    · rw [execTraced, if_neg hlen, err_of_next_finish (exec_frombv_of_gt rd addr s (not_le.1 hlen)) h]
      rfl
  | tob rs addr =>
    rcases execTob_cases rs addr s with ⟨hout, hr⟩ | ⟨hin, hr⟩
    · simp [err_of_next_finish hr h, execTraced, commandOps, opsOnSuccess, runInside, hout.not_ge, failTraced_ops]
    · simp [err_of_next_finish hr h, execTraced, commandOps, opsOnSuccess, runInside, hin, runOps]

/-- Settles O45: both traces are `commandOps` of the one code. -/
theorem traceDependsOnWordAndCode : Obligations.TraceDependsOnWordAndCode := by
  intro i s u t v hs hu herr
  rw [execTraced_ops hs, execTraced_ops hu, herr]

end Sys2Proof.Machine
end
